-- ==== Sys2Proof/Word.lean ====
section
/-! DEFINITION. The value types of the hardware: 32-bit words, the bytes of a line's text, register indices.

Rules: `10_state.md` R20 (32 registers of 32 bits), R25 (a 32-bit program counter, decision D12),
`30_encoding.md` R60 (an instruction is a finite sequence of characters, each stored in a byte),
`00_scope.md` R6 (a value of width `w` is an integer in `0 .. 2^w - 1`; arithmetic modulo `2^32` is that of `BitVec 32`). -/

namespace Sys2Proof

/-- A general register, a memory word, a line index, a byte address: 32 bits (R5 `XLEN`, `PC_BITS`). -/
abbrev Word := BitVec 32

/-- One character of a line: one 7-bit ASCII code stored in a byte (R60, decisions D1 and D2). -/
abbrev Byte := BitVec 8

/-- A line, a token, a label name: a finite sequence of characters (R10, R60). -/
abbrev Text := List Byte

/-- The index of one of the 32 general registers (R20). -/
abbrev RegIx := Fin 32

end Sys2Proof
end

