-- ==== Sys2Proof/Config.lean ====
section
/-! DEFINITION. The parameters of `00_scope.md` rule R5.

The sizes the document fixes are plain numbers.  The parameters rule R5 marks OPEN are opaque constants: nothing in Lean
can evaluate them, so whatever is proved holds for every value of them.  The parameters whose value is a decision of the
spec have their TYPE here and their value where a repair can reach it: `s4Index` and `immBits` in `Decode.lean`,
`shiftWide` in `Machine/Flags.lean`, `dupLabel` in `Machine/Labels.lean`. -/

namespace Sys2Proof
namespace Config

/-- R5 `NREGS`. -/
@[simp] def nRegs : Nat := 32

/-- R5 `N_BLOCKS`: the canonical variant has 8 blocks. -/
@[simp] def nBlocks : Nat := 8

/-- R5 `WORDS_PER_BLOCK`. -/
@[simp] def wordsPerBlock : Nat := 16

/-- R5 `BYTES_PER_WORD`. -/
@[simp] def bytesPerWord : Nat := 4

/-- R5 `BLOCK_BYTES` = `WORDS_PER_BLOCK * BYTES_PER_WORD` = 64. -/
@[simp] def blockBytes : Nat := 64

/-- R5 `MEM_BYTES` = `N_BLOCKS * BLOCK_BYTES` = 512. -/
@[simp] def memBytes : Nat := 512

/-- R5 `MEM_WORDS` = `N_BLOCKS * WORDS_PER_BLOCK` = 128. -/
@[simp] def memWords : Nat := 128

/-- R5 `REG_RESET`: the value `x1` to `x31` hold after reset (decision D16).
DESIGN CHOICE (the spec's own; notes/assumptions/13.md). -/
def regReset : Word := 0

/-- The values of R5 `SHIFT_WIDE`: what a shift by 32 or more does (R113, decision D10). -/
inductive ShiftWide where
  /-- the amount used is its low five bits -/
  | mask5
  /-- the result is 0 -/
  | zero
  /-- the model gives the instruction no meaning -/
  | fault
  deriving DecidableEq, Repr

/-- The values of R5 `JALR_ALIAS`: whether `JALR` with `rd = rs1` reads its base before or after the link is written
(R150, decision D11). -/
inductive JalrAlias where
  | readFirst
  | linkFirst
  deriving DecidableEq, Repr, Inhabited

/-- The treatments of a program that defines one label name twice (R5 `DUP_LABEL`, R108, decision D21). -/
inductive DupLabel where
  /-- the program is refused when it is loaded -/
  | refuse
  /-- the program is accepted, and the table entry is any of the defining lines -/
  | anyDefinition
  deriving DecidableEq, Repr

/-- R5 `JALR_ALIAS`, OPEN: an uninterpreted constant (notes/assumptions/8.md). -/
opaque jalrAlias : JalrAlias

/-- R5 `MAX_LINES`, OPEN, at most `2^32 - 1` (decision D25; notes/assumptions/22.md). -/
opaque maxLines : Fin (2 ^ 32)

/-- R5 `MAX_LINE_CHARS`, OPEN (decision D25; notes/assumptions/22.md). -/
opaque maxLineChars : Nat

/-- Which definition of a duplicated label survives is undefined (`90_conflicts.md` C2, `93_implementation_defined.md`
U1): whether the definition of `name` on line `k` replaces the one before it is a free value
(notes/assumptions/18.md). -/
opaque dupLabelReplaces (name : Text) (k : Nat) : Bool

end Config
end Sys2Proof
end

