-- ==== Sys2Proof/Syntax.lean ====
section
/-! DEFINITION. The syntax of the hardware: the operators, the six patterns, the instructions (one constructor per row of
`spec/opcode_table.json`) and the eight faults.

Rules: `30_encoding.md` R63 (the six patterns), R80 to R82 (the operators, their patterns and the roles of their fields),
`60_exceptions.md` R180 (the eight faults and what each carries). -/

namespace Sys2Proof

/-- The six patterns a line may match (R63). -/
inductive Shape where
  | label | twoOp | rrr | rl | rri | rob
  deriving DecidableEq, Repr

/-- The 21 operators (R80). -/
inductive Mnemonic where
  | mv | li
  | add | sub | mul | and | or | xor | sll | slr
  | addi | subi | andi | ori | xori | slli | slri
  | jalr | jal
  | lw | sw
  deriving DecidableEq, Repr

/-- An instruction: a line with its operator known and its fields resolved (R103) to register indices and integers.  The
label of `JAL` is kept as its name: it is looked up each time the instruction is executed (R151). -/
inductive Instr where
  /-- R120 `MV rd, rs` -/
  | mv (rd rs : RegIx)
  /-- R121 `LI rd, imm` -/
  | li (rd : RegIx) (imm : Int)
  /-- R130 `ADD rd, rs1, rs2` -/
  | add (rd rs1 rs2 : RegIx)
  /-- R131 `SUB rd, rs1, rs2` -/
  | sub (rd rs1 rs2 : RegIx)
  /-- R132 `MUL rd, rs1, rs2` -/
  | mul (rd rs1 rs2 : RegIx)
  /-- R133 `AND rd, rs1, rs2` -/
  | and (rd rs1 rs2 : RegIx)
  /-- R134 `OR rd, rs1, rs2` -/
  | or (rd rs1 rs2 : RegIx)
  /-- R135 `XOR rd, rs1, rs2` -/
  | xor (rd rs1 rs2 : RegIx)
  /-- R136 `SLL rd, rs1, rs2` -/
  | sll (rd rs1 rs2 : RegIx)
  /-- R137 `SLR rd, rs1, rs2` -/
  | slr (rd rs1 rs2 : RegIx)
  /-- R140 `ADDI rd, rs1, imm` -/
  | addi (rd rs1 : RegIx) (imm : Int)
  /-- R141 `SUBI rd, rs1, imm` -/
  | subi (rd rs1 : RegIx) (imm : Int)
  /-- R142 `ANDI rd, rs1, imm` -/
  | andi (rd rs1 : RegIx) (imm : Int)
  /-- R143 `ORI rd, rs1, imm` -/
  | ori (rd rs1 : RegIx) (imm : Int)
  /-- R144 `XORI rd, rs1, imm` -/
  | xori (rd rs1 : RegIx) (imm : Int)
  /-- R145 `SLLI rd, rs1, imm` -/
  | slli (rd rs1 : RegIx) (imm : Int)
  /-- R146 `SLRI rd, rs1, imm` -/
  | slri (rd rs1 : RegIx) (imm : Int)
  /-- R150 `JALR rd, rs1, imm` -/
  | jalr (rd rs1 : RegIx) (imm : Int)
  /-- R151 `JAL rd, label` -/
  | jal (rd : RegIx) (label : Text)
  /-- R160 `LW rd, offs(ra)` -/
  | lw (rd : RegIx) (offs : Int) (ra : RegIx)
  /-- R161 `SW rs, offs(ra)`: the first operand is the register whose value is stored. -/
  | sw (rs : RegIx) (offs : Int) (ra : RegIx)
  /-- R170 the label line `name:` -/
  | labelLine (name : Text)
  /-- R171 the empty line -/
  | emptyLine
  deriving DecidableEq, Repr

/-- The eight faults of the hardware with the value each carries (R180 to R188, decision D26). -/
inductive FaultCause where
  | unknownRegister (token : Text)
  | invalidImmediate (token : Text)
  | shapeMismatch (form : Text)
  | unknownOperator (token : Text)
  | unresolvedLabel (name : Text)
  | unalignedAccess (addr : Word)
  | outOfBounds (addr : Word)
  | endOfProgram
  deriving DecidableEq, Repr

/-- The outcome of a computation that may `raise` one of the hardware's faults (R11). -/
inductive Checked (α : Type) where
  | ok (a : α)
  | raise (f : FaultCause)
  deriving DecidableEq, Repr

end Sys2Proof
end

