-- ==== Sys2Proof/Decode.lean ====
section
/-! DEFINITION. The decoder, total on every sequence of bytes, and the encoder.

Rules: `30_encoding.md` R60 to R87 (characters, tokens, patterns, register names, immediates, operators) and
`40_decode_execute.md` R100 to R103 (the order in which a line is taken apart).  A line is text; there is no binary
encoding (R60, decision D1). -/

namespace Sys2Proof

/-! ### Characters (R61) -/

/-- The byte that stores an ASCII character (R60). -/
def ch (c : Char) : Byte := BitVec.ofNat 8 c.toNat

/-- The characters of a Lean string, for writing the spec's texts as the spec prints them. -/
def text (s : String) : Text := s.toList.map ch

/-- `WSCHAR` (R61): space, tab, line feed, vertical tab, form feed, carriage return. -/
def isSpace (b : Byte) : Bool :=
  b.toNat == 0x20 || (0x09 ≤ b.toNat && b.toNat ≤ 0x0D)

/-- `DIGIT` (R61). -/
def isDigit (b : Byte) : Bool :=
  0x30 ≤ b.toNat && b.toNat ≤ 0x39

/-- `WORDCHAR` (R61): letters of both cases, digits, underscore. -/
def isWordChar (b : Byte) : Bool :=
  isDigit b || (0x41 ≤ b.toNat && b.toNat ≤ 0x5A) || (0x61 ≤ b.toNat && b.toNat ≤ 0x7A) || b.toNat == 0x5F

/-- A trimmed line has no whitespace at its start or its end (R31, R61). -/
def isTrimmed (line : Text) : Bool :=
  !(line.head?.any isSpace) && !(line.getLast?.any isSpace)

/-- Trimming, which program load does to each line (R203). -/
def trim (line : Text) : Text :=
  (((line.dropWhile isSpace).reverse).dropWhile isSpace).reverse

/-! ### Tokens and separators (R62) -/

/-- A non-empty longest run of characters of a class, with what follows it. -/
def takeSome (p : Byte → Bool) (l : Text) : Option (Text × Text) :=
  if l.takeWhile p = [] then none else some (l.takeWhile p, l.dropWhile p)

/-- A token of a class with an optional `-` before it (R62: `INT`, `VAL`). -/
def takeSigned (p : Byte → Bool) (l : Text) : Option (Text × Text) :=
  match l with
  | [] => none
  | c :: r => if c = ch '-' then (takeSome p r).map fun x => (c :: x.1, x.2) else takeSome p l

/-- `WORD`: one or more `WORDCHAR`. -/
def lexWord (l : Text) : Option (Text × Text) := takeSome isWordChar l

/-- `INT`: an optional `-`, then one or more `DIGIT`. -/
def lexInt (l : Text) : Option (Text × Text) := takeSigned isDigit l

/-- `VAL`: an optional `-`, then one or more `WORDCHAR`. -/
def lexVal (l : Text) : Option (Text × Text) := takeSigned isWordChar l

/-- `GAP`: one or more `WSCHAR`. -/
def lexGap (l : Text) : Option Text := (takeSome isSpace l).map fun x => x.2

/-- A literal character. -/
def lexChar (c : Char) (l : Text) : Option Text :=
  match l with
  | [] => none
  | b :: r => if b = ch c then some r else none

/-- `SEP`: a comma, then zero or more `WSCHAR`. -/
def lexSep (l : Text) : Option Text := (lexChar ',' l).map fun r => r.dropWhile isSpace

/-- A whole token is a `WORD`. -/
def isWord (t : Text) : Bool := !t.isEmpty && t.all isWordChar

/-- A whole token is an `INT`. -/
def isInt (t : Text) : Bool :=
  match t with
  | [] => false
  | c :: r => if c = ch '-' then !r.isEmpty && r.all isDigit else t.all isDigit

/-! ### The six patterns (R63 to R69), each matched against the whole line -/

/-- The fields of a two-operand pattern. -/
structure Fields2 where
  op : Text
  f1 : Text
  f2 : Text
  deriving DecidableEq, Repr

/-- The fields of a three-operand pattern. -/
structure Fields3 where
  op : Text
  f1 : Text
  f2 : Text
  f3 : Text
  deriving DecidableEq, Repr

/-- `LABEL` (R64): `WORD` followed by `:` and nothing else; the field is the name. -/
def matchLabel (line : Text) : Option Text :=
  (lexWord line).bind fun w =>
  (lexChar ':' w.2).bind fun r =>
  if r = [] then some w.1 else none

/-- `WORD GAP WORD SEP`, with which the five operand patterns begin: the operator, the first operand, the rest. -/
def matchHead (line : Text) : Option (Text × Text × Text) :=
  (lexWord line).bind fun op =>
  (lexGap op.2).bind fun r =>
  (lexWord r).bind fun f1 =>
  (lexSep f1.2).map fun r => (op.1, f1.1, r)

/-- `2OP` (R65): `WORD GAP WORD SEP VAL`. -/
def matchTwoOp (line : Text) : Option Fields2 :=
  (matchHead line).bind fun h =>
  (lexVal h.2.2).bind fun f2 =>
  if f2.2 = [] then some ⟨h.1, h.2.1, f2.1⟩ else none

/-- `RL` (R67): `WORD GAP WORD SEP WORD`. -/
def matchRl (line : Text) : Option Fields2 :=
  (matchHead line).bind fun h =>
  (lexWord h.2.2).bind fun f2 =>
  if f2.2 = [] then some ⟨h.1, h.2.1, f2.1⟩ else none

/-- `RRR` (R66): `WORD GAP WORD SEP WORD SEP WORD`. -/
def matchRrr (line : Text) : Option Fields3 :=
  (matchHead line).bind fun h =>
  (lexWord h.2.2).bind fun f2 =>
  (lexSep f2.2).bind fun r =>
  (lexWord r).bind fun f3 =>
  if f3.2 = [] then some ⟨h.1, h.2.1, f2.1, f3.1⟩ else none

/-- `RRI` (R68): `WORD GAP WORD SEP WORD SEP INT`. -/
def matchRri (line : Text) : Option Fields3 :=
  (matchHead line).bind fun h =>
  (lexWord h.2.2).bind fun f2 =>
  (lexSep f2.2).bind fun r =>
  (lexInt r).bind fun f3 =>
  if f3.2 = [] then some ⟨h.1, h.2.1, f2.1, f3.1⟩ else none

/-- `ROB` (R69): `WORD GAP WORD SEP INT ( WORD )`; `f2` is the offset and `f3` the base. -/
def matchRob (line : Text) : Option Fields3 :=
  (matchHead line).bind fun h =>
  (lexInt h.2.2).bind fun f2 =>
  (lexChar '(' f2.2).bind fun r =>
  (lexWord r).bind fun f3 =>
  (lexChar ')' f3.2).bind fun r =>
  if r = [] then some ⟨h.1, h.2.1, f2.1, f3.1⟩ else none

/-! ### Register names (R70 to R74) -/

/-- R5 `S4_INDEX`: the alias `s4` resolves to 29, not 20 (R73, decision D7). -/
def s4Index : RegIx := 29

/-- The 28 numeric names `x0` to `x27` (R71). -/
def numericNames : List (Text × RegIx) :=
  [(text "x0", 0), (text "x1", 1), (text "x2", 2), (text "x3", 3), (text "x4", 4), (text "x5", 5), (text "x6", 6),
   (text "x7", 7), (text "x8", 8), (text "x9", 9), (text "x10", 10), (text "x11", 11), (text "x12", 12), (text "x13", 13),
   (text "x14", 14), (text "x15", 15), (text "x16", 16), (text "x17", 17), (text "x18", 18), (text "x19", 19),
   (text "x20", 20), (text "x21", 21), (text "x22", 22), (text "x23", 23), (text "x24", 24), (text "x25", 25),
   (text "x26", 26), (text "x27", 27)]

/-- The 29 alias names (R72).  PRESUMED: the indices are the standard calling-convention numbering, which the spec marks as
general knowledge (`93_implementation_defined.md` G1; notes/assumptions/4.md). -/
def aliasNames : List (Text × RegIx) :=
  [(text "zero", 0), (text "ra", 1), (text "sp", 2), (text "gp", 3), (text "tp", 4), (text "t0", 5), (text "t1", 6),
   (text "t2", 7), (text "s0", 8), (text "fp", 8), (text "s1", 9), (text "a0", 10), (text "a1", 11), (text "a2", 12),
   (text "a3", 13), (text "a4", 14), (text "a5", 15), (text "a6", 16), (text "a7", 17), (text "s2", 18), (text "s3", 19),
   (text "s4", s4Index), (text "s5", 21), (text "s6", 22), (text "s7", 23), (text "s8", 24), (text "s9", 25),
   (text "s10", 26), (text "s11", 27)]

/-- The constant table of 57 names (R70). -/
def regNames : List (Text × RegIx) := numericNames ++ aliasNames

/-- `RegResolve` (R70): a lookup of the whole token; any token not in the table has no index. -/
def regResolve (tok : Text) : Option RegIx :=
  (regNames.find? fun e => e.1 == tok).map fun e => e.2

/-- A register some name resolves to (R23). -/
def regNameable (i : RegIx) : Bool := regNames.any fun e => e.2 == i

/-! ### Immediates (R75 to R77) -/

/-- R5 `IMM_BITS` (R76, decision D8). -/
def immBits : Nat := 32

/-- An integer is in the signed range of an immediate (R76). -/
def immInRange (i : Int) : Bool :=
  -(2 ^ (immBits - 1) : Int) ≤ i && i ≤ (2 ^ (immBits - 1) : Int) - 1

/-- The value of a digit character. -/
def digitValue (b : Byte) : Nat := b.toNat - 0x30

/-- The decimal value of a sequence of digits; leading zeros are allowed and do not mean octal (R75). -/
def decimalValue (ds : Text) : Nat := ds.foldl (fun acc d => acc * 10 + digitValue d) 0

/-- The integer an `INT` denotes: its digits' value, negated if it starts with `-` (R75). -/
def intValue (tok : Text) : Int :=
  match tok with
  | [] => 0
  | c :: r => if c = ch '-' then -(decimalValue r : Int) else (decimalValue tok : Int)

/-- `ParseImm` (R75). -/
def parseImm (tok : Text) : Option Int :=
  if isInt tok && immInRange (intValue tok) then some (intValue tok) else none

/-! ### Operators (R79 to R83) -/

/-- How an operator is written (R80). -/
def spelling : Mnemonic → Text
  | .mv => text "MV" | .li => text "LI"
  | .add => text "ADD" | .sub => text "SUB" | .mul => text "MUL" | .and => text "AND"
  | .or => text "OR" | .xor => text "XOR" | .sll => text "SLL" | .slr => text "SLR"
  | .addi => text "ADDI" | .subi => text "SUBI" | .andi => text "ANDI" | .ori => text "ORI"
  | .xori => text "XORI" | .slli => text "SLLI" | .slri => text "SLRI"
  | .jalr => text "JALR" | .jal => text "JAL"
  | .lw => text "LW" | .sw => text "SW"

/-- The operators in the order of the opcode table. -/
def mnemonics : List Mnemonic :=
  [.mv, .li, .add, .sub, .mul, .and, .or, .xor, .sll, .slr, .addi, .subi, .andi, .ori, .xori, .slli, .slri,
   .jalr, .jal, .lw, .sw]

/-- The operator a token names, compared as a whole string (R102). -/
def mnemonicOf (tok : Text) : Option Mnemonic := mnemonics.find? fun m => spelling m == tok

/-- The pattern an operator requires (R81). -/
def shapeOf : Mnemonic → Shape
  | .mv | .li => .twoOp
  | .add | .sub | .mul | .and | .or | .xor | .sll | .slr => .rrr
  | .addi | .subi | .andi | .ori | .xori | .slli | .slri | .jalr => .rri
  | .jal => .rl
  | .lw | .sw => .rob

/-- The form text of a pattern, which `ShapeMismatch` carries (R63, R81). -/
def formText : Shape → Text
  | .label => text "LABEL:"
  | .twoOp => text "OP RD, IMM"
  | .rrr => text "OP RD, RS1, RS2"
  | .rl => text "OP RD, LABEL"
  | .rri => text "OP RD, RS1, IMM"
  | .rob => text "OP RD, OFFS(RA)"

/-- `Operator(line)` (R79, R101): empty for an empty line and for a label line, else the longest run of the line's first
characters that holds no whitespace. -/
def operatorOf (line : Text) : Text :=
  if line = [] then [] else
  match matchLabel line with
  | some _ => []
  | none => line.takeWhile fun b => !isSpace b

/-! ### Resolution of the fields, left to right (R103) -/

/-- Go on with the value, or raise the fault: the first failing field decides (R103, decision D13). -/
def Checked.andThen {α β : Type} (x : Checked α) (f : α → Checked β) : Checked β :=
  match x with
  | .ok a => f a
  | .raise e => .raise e

/-- `RegResolve` of a field, raising `UnknownRegister(tok)` (R70, R181). -/
def resolveReg (tok : Text) : Checked RegIx :=
  match regResolve tok with
  | some i => .ok i
  | none => .raise (.unknownRegister tok)

/-- `ParseImm` of a field, raising `InvalidImmediate(tok)` (R75, R182). -/
def resolveImm (tok : Text) : Checked Int :=
  match parseImm tok with
  | some i => .ok i
  | none => .raise (.invalidImmediate tok)

/-- The fields of a matched pattern, or `ShapeMismatch` with the pattern's form text (R81, R183). -/
def requireShape {α : Type} (sh : Shape) (m : Option α) : Checked α :=
  match m with
  | some f => .ok f
  | none => .raise (.shapeMismatch (formText sh))

/-- `MV`: `f1` and `f2` are registers (R82, R120). -/
def decodeMv (line : Text) : Checked Instr :=
  (requireShape .twoOp (matchTwoOp line)).andThen fun f =>
  (resolveReg f.f1).andThen fun rd =>
  (resolveReg f.f2).andThen fun rs => .ok (.mv rd rs)

/-- `LI`: `f1` is a register, `f2` an immediate (R82, R121). -/
def decodeLi (line : Text) : Checked Instr :=
  (requireShape .twoOp (matchTwoOp line)).andThen fun f =>
  (resolveReg f.f1).andThen fun rd =>
  (resolveImm f.f2).andThen fun imm => .ok (.li rd imm)

/-- The eight register-register operators: three registers (R82). -/
def decodeRrr (mk : RegIx → RegIx → RegIx → Instr) (line : Text) : Checked Instr :=
  (requireShape .rrr (matchRrr line)).andThen fun f =>
  (resolveReg f.f1).andThen fun rd =>
  (resolveReg f.f2).andThen fun rs1 =>
  (resolveReg f.f3).andThen fun rs2 => .ok (mk rd rs1 rs2)

/-- The seven register-immediate operators and `JALR`: two registers and an immediate (R82). -/
def decodeRri (mk : RegIx → RegIx → Int → Instr) (line : Text) : Checked Instr :=
  (requireShape .rri (matchRri line)).andThen fun f =>
  (resolveReg f.f1).andThen fun rd =>
  (resolveReg f.f2).andThen fun rs1 =>
  (resolveImm f.f3).andThen fun imm => .ok (mk rd rs1 imm)

/-- `JAL`: a register, and a label name that is looked up when the instruction is executed (R82, R151). -/
def decodeJal (line : Text) : Checked Instr :=
  (requireShape .rl (matchRl line)).andThen fun f =>
  (resolveReg f.f1).andThen fun rd => .ok (.jal rd f.f2)

/-- `LW` and `SW`: a register, an offset, a base register (R82). -/
def decodeRob (mk : RegIx → Int → RegIx → Instr) (line : Text) : Checked Instr :=
  (requireShape .rob (matchRob line)).andThen fun f =>
  (resolveReg f.f1).andThen fun r =>
  (resolveImm f.f2).andThen fun offs =>
  (resolveReg f.f3).andThen fun ra => .ok (mk r offs ra)

/-- The line's pattern and fields, for a known operator (R81, R82). -/
def decodeAs (m : Mnemonic) (line : Text) : Checked Instr :=
  match m with
  | .mv => decodeMv line
  | .li => decodeLi line
  | .add => decodeRrr .add line
  | .sub => decodeRrr .sub line
  | .mul => decodeRrr .mul line
  | .and => decodeRrr .and line
  | .or => decodeRrr .or line
  | .xor => decodeRrr .xor line
  | .sll => decodeRrr .sll line
  | .slr => decodeRrr .slr line
  | .addi => decodeRri .addi line
  | .subi => decodeRri .subi line
  | .andi => decodeRri .andi line
  | .ori => decodeRri .ori line
  | .xori => decodeRri .xori line
  | .slli => decodeRri .slli line
  | .slri => decodeRri .slri line
  | .jalr => decodeRri .jalr line
  | .jal => decodeJal line
  | .lw => decodeRob .lw line
  | .sw => decodeRob .sw line

/-- The decoder (R85, R100 to R103): every sequence of characters has exactly one outcome. -/
def decode (line : Text) : Checked Instr :=
  if line = [] then .ok .emptyLine else
  match matchLabel line with
  | some name => .ok (.labelLine name)
  | none =>
    match mnemonicOf (operatorOf line) with
    | none => .raise (.unknownOperator (operatorOf line))
    | some m => decodeAs m line

/-! ### The encoder: the text of an instruction, written from the forms of R63 to R69

One space after the operator, a comma and one space between operands, as the document's forms show; each register by the
first of its names in `regNames` (`x0` to `x27`, and `s4` for index 29); an immediate in decimal without leading zeros. -/

/-- The first name of a register in the table; a register no name resolves to has none (R23). -/
def regName (i : RegIx) : Text :=
  match regNames.find? fun e => e.2 == i with
  | some e => e.1
  | none => []

/-- The character of a digit. -/
def digitChar (d : Nat) : Byte := BitVec.ofNat 8 (0x30 + d)

/-- The decimal digits of a number below `10 ^ fuel`. -/
def decimalDigits : Nat → Nat → Text
  | 0, n => [digitChar (n % 10)]
  | fuel + 1, n => if n < 10 then [digitChar n] else decimalDigits fuel (n / 10) ++ [digitChar (n % 10)]

/-- A natural number in decimal. -/
def natText (n : Nat) : Text := decimalDigits (n.log2 + 1) n

/-- An integer as an `INT` (R62). -/
def intText (i : Int) : Text :=
  if i < 0 then ch '-' :: natText i.natAbs else natText i.natAbs

/-- `OP f1, f2`. -/
def line2 (m : Mnemonic) (f1 f2 : Text) : Text :=
  spelling m ++ text " " ++ f1 ++ text ", " ++ f2

/-- `OP f1, f2, f3`. -/
def line3 (m : Mnemonic) (f1 f2 f3 : Text) : Text :=
  spelling m ++ text " " ++ f1 ++ text ", " ++ f2 ++ text ", " ++ f3

/-- `OP f1, f2(f3)`. -/
def lineRob (m : Mnemonic) (f1 f2 f3 : Text) : Text :=
  spelling m ++ text " " ++ f1 ++ text ", " ++ f2 ++ text "(" ++ f3 ++ text ")"

/-- The text of an instruction. -/
def encode : Instr → Text
  | .mv rd rs => line2 .mv (regName rd) (regName rs)
  | .li rd imm => line2 .li (regName rd) (intText imm)
  | .add rd rs1 rs2 => line3 .add (regName rd) (regName rs1) (regName rs2)
  | .sub rd rs1 rs2 => line3 .sub (regName rd) (regName rs1) (regName rs2)
  | .mul rd rs1 rs2 => line3 .mul (regName rd) (regName rs1) (regName rs2)
  | .and rd rs1 rs2 => line3 .and (regName rd) (regName rs1) (regName rs2)
  | .or rd rs1 rs2 => line3 .or (regName rd) (regName rs1) (regName rs2)
  | .xor rd rs1 rs2 => line3 .xor (regName rd) (regName rs1) (regName rs2)
  | .sll rd rs1 rs2 => line3 .sll (regName rd) (regName rs1) (regName rs2)
  | .slr rd rs1 rs2 => line3 .slr (regName rd) (regName rs1) (regName rs2)
  | .addi rd rs1 imm => line3 .addi (regName rd) (regName rs1) (intText imm)
  | .subi rd rs1 imm => line3 .subi (regName rd) (regName rs1) (intText imm)
  | .andi rd rs1 imm => line3 .andi (regName rd) (regName rs1) (intText imm)
  | .ori rd rs1 imm => line3 .ori (regName rd) (regName rs1) (intText imm)
  | .xori rd rs1 imm => line3 .xori (regName rd) (regName rs1) (intText imm)
  | .slli rd rs1 imm => line3 .slli (regName rd) (regName rs1) (intText imm)
  | .slri rd rs1 imm => line3 .slri (regName rd) (regName rs1) (intText imm)
  | .jalr rd rs1 imm => line3 .jalr (regName rd) (regName rs1) (intText imm)
  | .jal rd label => line2 .jal (regName rd) label
  | .lw rd offs ra => lineRob .lw (regName rd) (intText offs) (regName ra)
  | .sw rs offs ra => lineRob .sw (regName rs) (intText offs) (regName ra)
  | .labelLine name => name ++ text ":"
  | .emptyLine => []

/-! ### The opcode table's numbers (R82)

The table keys a row by the ASCII codes of its operator token, the first character most significant, and gives the operand
text no bits.  An instruction of the table is therefore the token followed by operands of zeros: register `x0`, integer
`0`, label `0` (notes/assumptions/28.md). -/

/-- The operator token a table number spells: at most `nbits / 8` characters, the first one most significant (R82).  Zero
bytes before the first character are no characters, so the number 0 of the rows without a token spells the empty token. -/
def tableToken (nbits w : Nat) : Text :=
  ((List.range (nbits / 8)).reverse.map fun k => BitVec.ofNat 8 (w >>> (8 * k))).dropWhile fun b => b == 0

/-- The operand text of zeros an operator takes, after its token. -/
def zeroOperands (m : Mnemonic) : Text :=
  match m with
  | .mv => text " x0, x0"
  | .li => text " x0, 0"
  | _ =>
    match shapeOf m with
    | .rrr => text " x0, x0, x0"
    | .rri => text " x0, x0, 0"
    | .rl => text " x0, 0"
    | .rob => text " x0, 0(x0)"
    | .twoOp | .label => []

/-- The line of a table number: the token, then operands of zeros where the token is an operator. -/
def tableLine (nbits w : Nat) : Text :=
  match mnemonicOf (tableToken nbits w) with
  | some m => tableToken nbits w ++ zeroOperands m
  | none => tableToken nbits w

/-- The instruction the decoder reads from a table number. -/
def decodeTableWord (nbits w : Nat) : Option Instr :=
  match decode (tableLine nbits w) with
  | .ok i => some i
  | .raise _ => none

end Sys2Proof
end

