-- ==== Sys2Proof/Machine/State.lean ====
section
/-! DEFINITION. The state of the hardware, the reasons a step can stop, and the state after reset.

Rules: `10_state.md` R20 to R35 (every piece of state there is), `60_exceptions.md` R193 (the fault record), R195 (`Halted`
is final), `70_reset_and_hazards.md` R220 to R224 (reset). -/

namespace Sys2Proof.Machine

/-- The coherence-state tag of a memory block: five values with no encoding, stored and never touched (R30). -/
inductive CoherenceTag where
  | modified | owner | exclusive | shared | invalid
  deriving DecidableEq, Repr

/-- What a fault saves: the fault with the value it carries, the line index, and the line's text when there is one (R193,
decision D26). -/
structure FaultRecord where
  cause : FaultCause
  line : Word
  lineText : Option Text
  deriving DecidableEq, Repr

/-- The session status (R34). -/
inductive Status where
  | ready
  | halted (error : FaultRecord)
  deriving DecidableEq, Repr

/-- Memory as the pairs of a byte address and the byte it holds, where that is not what an unlisted address reads as.
The words of R28 are read and written through `wordAt` and `setWordAt` of `Ops.lean`. -/
abbrev Memory := List Host.Cell

/-- The canonical form: addresses strictly rising, no listed byte equal to what an unlisted address reads as (0, R221), no
address outside the data space (R48). -/
abbrev Memory.wf (m : Memory) : Prop :=
  m.Pairwise (fun c d => c.1 < d.1) ∧ ∀ c ∈ m, c.2 ≠ 0 ∧ c.1 < Config.memBytes

/-- Everything the spec gives the machine (R20 to R35); `INVENTORY.md` lists each field with its rule. -/
structure State where
  /-- the general registers `x[0]` to `x[31]` (R20) -/
  regs : Vector Word 32
  /-- the program counter, a line index (R25) -/
  pc : Word
  /-- the data memory (R28) -/
  mem : Memory
  /-- the coherence-state tag of each block (R30) -/
  tags : Vector CoherenceTag 8
  /-- the program store: the lines, each trimmed (R31) -/
  lines : List Text
  /-- the label table: unique names with their line indices (R32) -/
  labels : List (Text × Word)
  /-- the breakpoint set, as its line indices in rising order (R33) -/
  breakpoints : List Word
  /-- the session status (R34) -/
  status : Status
  /-- the last fault record, if a fault was recorded in this session (R34, R193) -/
  lastError : Option FaultRecord
  deriving DecidableEq, Repr

/-- How a step can have no next state.  None of the hardware's eight faults is here: those are taken (`raiseFault`). -/
inductive Fault where
  /-- A step is asked of a `Halted` session: the model has no execution step there (R195, decision D18,
  `93_implementation_defined.md` U9 `stuck`).  Raised by `stepSession` and `runAmount`.  Safe: the model stops where the
  hardware might run the faulting line again. -/
  | halted
  deriving DecidableEq, Repr

/-- What the model turns away. -/
inductive Refusal where
  /-- An instruction without a meaning yet.  Raised by an arm of `exec`.  Safe. -/
  | notModelled (mnemonic : String)
  /-- A shift by 32 or more when `shiftWide` is set to `fault` (R113, R136); under the spec's setting `mask5` no
  instruction answers this.  Raised by `SLL`, `SLR`, `SLLI`, `SLRI`.  Safe. -/
  | wideShift
  /-- A program that defines one label name on two lines, when `dupLabel` is `refuse` (R108, decision D21).  Raised by
  `loadProgram`.  Safe. -/
  | duplicateLabel (name : Text)
  /-- A program of more than `MAX_LINES` lines (R31, decision D25).  Raised by `loadProgram`.  Safe. -/
  | tooManyLines
  /-- A program with a line of more than `MAX_LINE_CHARS` characters (R5, decision D25).  Raised by `loadProgram`.  Safe. -/
  | lineTooLong
  deriving DecidableEq, Repr

/-- The state after reset, which is the creation of a session (R220 to R224).  The values of `x1` to `x31`, of the `pc` and
of the program are decision D16 of the spec (notes/assumptions/13.md). -/
def State.reset : State where
  regs := (Vector.replicate 32 Config.regReset).set 0 0
  pc := 0
  mem := []
  tags := Vector.replicate 8 .invalid
  lines := []
  labels := []
  breakpoints := []
  status := .ready
  lastError := none

end Sys2Proof.Machine
end

