-- ==== Sys2Proof/Machine/Ops.lean ====
section
/-! DEFINITION. The named operations over memory and registers, the end of every executed line, and taking a fault.

Rules: `10_state.md` R21, R22, R26 (registers, zero forcing, advance), `20_memory.md` R40 to R49 (the accessor),
`60_exceptions.md` R192 to R194 (fault entry). -/

namespace Sys2Proof.Machine

/-! ### Memory (R28, R29, R40 to R49) -/

/-- What a byte of memory nothing has written reads as: fresh memory is 0 (R221). -/
def Memory.unlisted : Byte := 0

/-- The byte at a byte address. -/
def Memory.byteAt : Memory → Nat → Byte
  | [], _ => Memory.unlisted
  | c :: m, a => if c.1 = a then c.2 else Memory.byteAt m a

/-- Memory with one byte changed, in the canonical form. -/
def Memory.setByte : Memory → Nat → Byte → Memory
  | [], a, b => if b = Memory.unlisted then [] else [(a, b)]
  | c :: m, a, b =>
    if a < c.1 then (if b = Memory.unlisted then c :: m else (a, b) :: c :: m)
    else if a = c.1 then (if b = Memory.unlisted then m else (a, b) :: m)
    else c :: Memory.setByte m a b

/-- Byte `k` of a word: bits `8k + 7 : 8k`.  DESIGN CHOICE (the spec's D15, R49): little-endian, not observable through any
instruction (notes/assumptions/12.md). -/
def byteOfWord (v : Word) (k : Nat) : Byte := v.extractLsb' (8 * k) 8

/-- The 32-bit word in the four bytes from address `a` on (R29, R49). -/
def Memory.wordFrom (m : Memory) (a : Nat) : Word :=
  m.byteAt (a + 3) ++ m.byteAt (a + 2) ++ m.byteAt (a + 1) ++ m.byteAt a

/-- Memory with the four bytes from address `a` on holding the word `v`. -/
def Memory.setWordFrom (m : Memory) (a : Nat) (v : Word) : Memory :=
  (((m.setByte a (byteOfWord v 0)).setByte (a + 1) (byteOfWord v 1)).setByte (a + 2) (byteOfWord v 2)).setByte (a + 3)
    (byteOfWord v 3)

/-- `block(addr) = addr div 64` (R40). -/
def blockOf (addr : Word) : Nat := addr.toNat / Config.blockBytes

/-- `offset(addr) = (addr mod 64) div 4` (R40). -/
def offsetOf (addr : Word) : Nat := addr.toNat % Config.blockBytes / Config.bytesPerWord

/-- The byte address of word `w` of block `b` (R29). -/
def cellAddr (b w : Nat) : Nat := Config.blockBytes * b + Config.bytesPerWord * w

/-- `M[b][w]` (R28). -/
def Memory.wordAt (m : Memory) (b w : Nat) : Word := m.wordFrom (cellAddr b w)

/-- `M[b][w] <- v` (R28). -/
def Memory.setWordAt (m : Memory) (b w : Nat) (v : Word) : Memory := m.setWordFrom (cellAddr b w) v

/-- `MemRead(addr, 4)` (R41): alignment is checked before the bounds (R45, decision D14). -/
def memRead (m : Memory) (addr : Word) : Checked Word :=
  if addr.toNat % Config.bytesPerWord ≠ 0 then .raise (.unalignedAccess addr)
  else if blockOf addr ≥ Config.nBlocks then .raise (.outOfBounds addr)
  else .ok (m.wordAt (blockOf addr) (offsetOf addr))

/-- `MemWrite(addr, 4, v)` (R42): the memory after the write, or the fault and no write. -/
def memWrite (m : Memory) (addr v : Word) : Checked Memory :=
  if addr.toNat % Config.bytesPerWord ≠ 0 then .raise (.unalignedAccess addr)
  else if blockOf addr ≥ Config.nBlocks then .raise (.outOfBounds addr)
  else .ok (m.setWordAt (blockOf addr) (offsetOf addr) v)

/-! ### Registers (R7, R20 to R22) -/

/-- `x[i]` (R7): the value register `i` holds at that moment. -/
def State.readReg (s : State) (i : RegIx) : Word := s.regs[i]

/-- `x[i] <- v` (R7): a write to `x[0]` is performed like any other and undone at the end of the line (R22). -/
def State.writeReg (s : State) (i : RegIx) (v : Word) : State := { s with regs := s.regs.set i v }

/-! ### The end of an executed line, and taking a fault -/

/-- The end of every successfully executed line: the `pc` is set, then `x[0] <- 0` (R22, R26, R100). -/
def complete (next : Word) (s : State) : State := { s with pc := next, regs := s.regs.set 0 0 }

/-- The fault record of a fault raised in state `s` (R193): the cause, the `pc`, and the text of the line there if there is
one. -/
def faultRecord (f : FaultCause) (s : State) : FaultRecord :=
  { cause := f, line := s.pc, lineText := s.lines[s.pc.toNat]? }

/-- The ordinal of a fault, for a status port that needs a number; nothing depends on it (R180, decision D22;
notes/assumptions/19.md). -/
def faultOrdinal : FaultCause → Nat
  | .unknownRegister _ => 0
  | .invalidImmediate _ => 1
  | .shapeMismatch _ => 2
  | .unknownOperator _ => 3
  | .unresolvedLabel _ => 4
  | .unalignedAccess _ => 5
  | .outOfBounds _ => 6
  | .endOfProgram => 7

/-- Taking a fault (R192 to R194): the record is saved as the last error and the status becomes `Halted`; no register, no
memory word, not the `pc` and nothing else changes.  There is no return from a fault (R195). -/
def raiseFault (f : FaultCause) (s : State) : State :=
  { s with lastError := some (faultRecord f s), status := .halted (faultRecord f s) }

end Sys2Proof.Machine
end

