-- ==== Sys2Proof/Machine/Labels.lean ====
section
/-! DEFINITION. The label-address resolver: the scanner, the lookup, and the treatment of duplicate names.

Rules: `40_decode_execute.md` R106 to R108, `10_state.md` R32, `90_conflicts.md` C2. -/

namespace Sys2Proof.Machine

/-- R5 `DUP_LABEL`.  DESIGN CHOICE (the spec's D21, R108): a program that defines one name twice is refused when it is
loaded (notes/assumptions/18.md). -/
def dupLabel : Config.DupLabel := .refuse

/-- `table[name] <- k`: a name that is new gets an entry.  For a name that has one already, which of the two lines survives
is undefined (`90_conflicts.md` C2), so it is a free value: the keys stay unique and the entry is one of the defining lines
(R108). -/
def recordLabel (table : List (Text × Word)) (name : Text) (k : Nat) : List (Text × Word) :=
  match table with
  | [] => [(name, BitVec.ofNat 32 k)]
  | e :: rest =>
    if e.1 = name then
      (name, if Config.dupLabelReplaces name k then BitVec.ofNat 32 k else e.2) :: rest
    else e :: recordLabel rest name k

/-- The forward pass of R106 over the lines from index `k` on. -/
def scanFrom (k : Nat) (lines : List Text) (table : List (Text × Word)) : List (Text × Word) :=
  match lines with
  | [] => table
  | line :: rest =>
    match matchLabel line with
    | some name => scanFrom (k + 1) rest (recordLabel table name k)
    | none => scanFrom (k + 1) rest table

/-- `Scan()`: the label table of a program, from an empty table (R106). -/
def scan (lines : List Text) : List (Text × Word) := scanFrom 0 lines []

/-- `LabelLookup(name)`: the line index, or absence (R107). -/
def labelLookup (table : List (Text × Word)) (name : Text) : Option Word :=
  match table with
  | [] => none
  | e :: rest => if e.1 = name then some e.2 else labelLookup rest name

/-- The names a program defines, in line order. -/
def labelNames (lines : List Text) : List Text := lines.filterMap matchLabel

/-- A name that occurs twice in a list, if there is one. -/
def firstRepeated (names : List Text) : Option Text :=
  match names with
  | [] => none
  | n :: rest => if n ∈ rest then some n else firstRepeated rest

/-- A label name the program defines on two lines, if there is one (R108). -/
def duplicatedLabel (lines : List Text) : Option Text := firstRepeated (labelNames lines)

end Sys2Proof.Machine
end

