-- ==== Sys2Proof/Machine/Operands.lean ====
section
/-! DEFINITION. The operand forms of the instructions: immediates as 32-bit values, the next line, the effective address of
a load or store, the target of `JALR`.

Rules: `00_scope.md` R6, R9, `30_encoding.md` R77, R78, `10_state.md` R26, `44_control.md` R150, `45_load_store.md` R162. -/

namespace Sys2Proof.Machine

/-- `to32(i) = sext_32(i)`: the 32-bit value `i mod 2^32` of an integer (R6, R9), in which every immediate is used (R77,
decision D9). -/
def to32 (i : Int) : Word := BitVec.ofInt 32 i

/-- `pc +32 1`: the index of the next line, which is the link value of `JAL` and `JALR` too (R25, R26). -/
def nextLine (s : State) : Word := s.pc + 1

/-- `EA = x[b] +32 to32(offs)` (R162): not scaled, and the base register is not changed. -/
def effectiveAddress (s : State) (offs : Int) (base : RegIx) : Word := s.readReg base + to32 offs

/-- The base of `JALR`'s target (R150).  With `rd` and `rs1` different it is `x[rs1]`.  With `rd = rs1` the order of the base
read and the link write is open: `JALR_ALIAS` decides whether the old value or the link is read. -/
def jalrBase (s : State) (rd rs1 : RegIx) : Word :=
  if rd = rs1 then
    match Config.jalrAlias with
    | .readFirst => s.readReg rs1
    | .linkFirst => (s.writeReg rd (nextLine s)).readReg rs1
  else s.readReg rs1

/-- `JALR`'s target: the base plus the immediate, modulo `2^32`, neither masked nor checked (R27, R150). -/
def jalrTarget (s : State) (rd rs1 : RegIx) (imm : Int) : Word := jalrBase s rd rs1 + to32 imm

end Sys2Proof.Machine
end

