-- ==== Sys2Proof/Machine/Control.lean ====
section
/-! DEFINITION. Control transfer (`44_control.md`): `JALR` and `JAL` set the `pc` to their target and suppress the default
advance (R26). -/

namespace Sys2Proof.Machine

/-- The link is written to `rd` and the line completes at `target`. -/
def linkAndJump (rd : RegIx) (target : Word) (s : State) : Host.Outcome State Fault Refusal :=
  .next (complete target (s.writeReg rd (nextLine s)))

/-- R150 `JALR rd, rs1, imm`: `x[rd] <- pc +32 1; pc <- x[rs1] +32 to32(imm)`; with `rd = rs1` the base is open
(`jalrBase`). -/
def execJalr (rd rs1 : RegIx) (imm : Int) (s : State) : Host.Outcome State Fault Refusal :=
  linkAndJump rd (jalrTarget s rd rs1 imm) s

/-- R151 `JAL rd, label`: `x[rd] <- pc +32 1; pc <- LabelLookup(label)`; an absent label raises `UnresolvedLabel` and changes
nothing, not even `rd` (R185). -/
def execJal (rd : RegIx) (label : Text) (s : State) : Host.Outcome State Fault Refusal :=
  match labelLookup s.labels label with
  | some t => linkAndJump rd t s
  | none => .next (raiseFault (.unresolvedLabel label) s)

end Sys2Proof.Machine
end

