-- ==== Sys2Proof/Machine/Flags.lean ====
section
/-! DEFINITION. The results of the arithmetic, logical and shift operators.

The hardware has no flags (R35): overflow and underflow raise nothing and set nothing (R110).
Rules: `00_scope.md` R6, R12, `40_decode_execute.md` R110 to R113. -/

namespace Sys2Proof.Machine

/-- `a +32 b` (R6, R110). -/
def add32 (a b : Word) : Word := a + b

/-- `a -32 b` (R6, R110). -/
def sub32 (a b : Word) : Word := a - b

/-- `a *32 b`, the low 32 bits of the product (R112). -/
def mul32 (a b : Word) : Word := a * b

/-- `a AND b`, bitwise (R12). -/
def and32 (a b : Word) : Word := a &&& b

/-- `a OR b`, bitwise (R12). -/
def or32 (a b : Word) : Word := a ||| b

/-- `a XOR b`, bitwise (R12). -/
def xor32 (a b : Word) : Word := a ^^^ b

/-- R5 `SHIFT_WIDE`.  DESIGN CHOICE (the spec's D10, R113): `mask5` (notes/assumptions/7.md). -/
def shiftWide : Config.ShiftWide := .mask5

/-- A shift of `v` by the 32-bit amount `a`, where `sh` shifts by an amount of at most 31.  The document settles amounts 0 to
31; `shiftWide` says what a larger one does, and `none` is no meaning (R113). -/
def shiftBy (sh : Word → Nat → Word) (v a : Word) : Option Word :=
  if a.toNat < 32 then some (sh v a.toNat) else
  match shiftWide with
  | .mask5 => some (sh v (a.toNat % 32))
  | .zero => some 0
  | .fault => none

/-- `v << a`, logical (R12, R113). -/
def shiftLeft (v a : Word) : Option Word := shiftBy (fun w n => w <<< n) v a

/-- `v >> a`, logical: zeros enter at bit 31 (R12, R113). -/
def shiftRight (v a : Word) : Option Word := shiftBy (fun w n => w >>> n) v a

end Sys2Proof.Machine
end

