-- ==== Sys2Proof/Machine/Move.lean ====
section
/-! DEFINITION. The move family (`41_move.md`), and the shared end of an instruction that writes one register. -/

namespace Sys2Proof.Machine

/-- The instruction writes `v` to `rd` and the line completes with the default advance (R26, R104). -/
def writeAndAdvance (rd : RegIx) (v : Word) (s : State) : Host.Outcome State Fault Refusal :=
  .next (complete (nextLine s) (s.writeReg rd v))

/-- R120 `MV rd, rs`: `x[rd] <- x[rs]`. -/
def execMv (rd rs : RegIx) (s : State) : Host.Outcome State Fault Refusal :=
  writeAndAdvance rd (s.readReg rs) s

/-- R121 `LI rd, imm`: `x[rd] <- to32(imm)`. -/
def execLi (rd : RegIx) (imm : Int) (s : State) : Host.Outcome State Fault Refusal :=
  writeAndAdvance rd (to32 imm) s

end Sys2Proof.Machine
end

