-- ==== Sys2Proof/Machine/LoadStore.lean ====
section
/-! DEFINITION. Loads and stores (`45_load_store.md`). -/

namespace Sys2Proof.Machine

/-- R160 `LW rd, offs(ra)`: `x[rd] <- MemRead(EA, 4)`; the read comes first, so a fault leaves `rd` as it was. -/
def execLw (rd : RegIx) (offs : Int) (ra : RegIx) (s : State) : Host.Outcome State Fault Refusal :=
  match memRead s.mem (effectiveAddress s offs ra) with
  | .ok w => writeAndAdvance rd w s
  | .raise f => .next (raiseFault f s)

/-- R161 `SW rs, offs(ra)`: `MemWrite(EA, 4, x[rs])`; no general register is written. -/
def execSw (rs : RegIx) (offs : Int) (ra : RegIx) (s : State) : Host.Outcome State Fault Refusal :=
  match memWrite s.mem (effectiveAddress s offs ra) (s.readReg rs) with
  | .ok m => .next (complete (nextLine s) { s with mem := m })
  | .raise f => .next (raiseFault f s)

end Sys2Proof.Machine
end

