-- ==== Sys2Proof/Machine/NoOp.lean ====
section
/-! DEFINITION. The lines with the empty operator (`46_noop.md`): executed lines that only advance the `pc` and force
`x[0]` to 0. -/

namespace Sys2Proof.Machine

/-- The line completes with the default advance and no other effect. -/
def advanceOnly (s : State) : Host.Outcome State Fault Refusal :=
  .next (complete (nextLine s) s)

/-- R170 the label line: its name was recorded when the program was loaded and is not read again. -/
def execLabelLine (_name : Text) (s : State) : Host.Outcome State Fault Refusal := advanceOnly s

/-- R171 the empty line, the hardware's only no-op. -/
def execEmptyLine (s : State) : Host.Outcome State Fault Refusal := advanceOnly s

end Sys2Proof.Machine
end

