-- ==== Sys2Proof/Machine/RegReg.lean ====
section
/-! DEFINITION. The register-register family (`42_reg_reg.md`): all sources are read before the destination is written
(R114). -/

namespace Sys2Proof.Machine

/-- The end of a shift: the result is written, or the amount has no meaning under the setting of `shiftWide` (R113). -/
def writeShifted (rd : RegIx) (r : Option Word) (s : State) : Host.Outcome State Fault Refusal :=
  match r with
  | some v => writeAndAdvance rd v s
  | none => .refused .wideShift

/-- R130 `ADD rd, rs1, rs2`: `x[rd] <- x[rs1] +32 x[rs2]`. -/
def execAdd (rd rs1 rs2 : RegIx) (s : State) : Host.Outcome State Fault Refusal :=
  writeAndAdvance rd (add32 (s.readReg rs1) (s.readReg rs2)) s

/-- R131 `SUB rd, rs1, rs2`: `x[rd] <- x[rs1] -32 x[rs2]`. -/
def execSub (rd rs1 rs2 : RegIx) (s : State) : Host.Outcome State Fault Refusal :=
  writeAndAdvance rd (sub32 (s.readReg rs1) (s.readReg rs2)) s

/-- R132 `MUL rd, rs1, rs2`: `x[rd] <- x[rs1] *32 x[rs2]`. -/
def execMul (rd rs1 rs2 : RegIx) (s : State) : Host.Outcome State Fault Refusal :=
  writeAndAdvance rd (mul32 (s.readReg rs1) (s.readReg rs2)) s

/-- R133 `AND rd, rs1, rs2`: `x[rd] <- x[rs1] AND x[rs2]`. -/
def execAnd (rd rs1 rs2 : RegIx) (s : State) : Host.Outcome State Fault Refusal :=
  writeAndAdvance rd (and32 (s.readReg rs1) (s.readReg rs2)) s

/-- R134 `OR rd, rs1, rs2`: `x[rd] <- x[rs1] OR x[rs2]`. -/
def execOr (rd rs1 rs2 : RegIx) (s : State) : Host.Outcome State Fault Refusal :=
  writeAndAdvance rd (or32 (s.readReg rs1) (s.readReg rs2)) s

/-- R135 `XOR rd, rs1, rs2`: `x[rd] <- x[rs1] XOR x[rs2]`. -/
def execXor (rd rs1 rs2 : RegIx) (s : State) : Host.Outcome State Fault Refusal :=
  writeAndAdvance rd (xor32 (s.readReg rs1) (s.readReg rs2)) s

/-- R136 `SLL rd, rs1, rs2`: `x[rd] <- x[rs1] << ShiftAmount(x[rs2])`, logical. -/
def execSll (rd rs1 rs2 : RegIx) (s : State) : Host.Outcome State Fault Refusal :=
  writeShifted rd (shiftLeft (s.readReg rs1) (s.readReg rs2)) s

/-- R137 `SLR rd, rs1, rs2`: `x[rd] <- x[rs1] >> ShiftAmount(x[rs2])`, logical. -/
def execSlr (rd rs1 rs2 : RegIx) (s : State) : Host.Outcome State Fault Refusal :=
  writeShifted rd (shiftRight (s.readReg rs1) (s.readReg rs2)) s

end Sys2Proof.Machine
end

