-- ==== Sys2Proof/Machine/RegImm.lean ====
section
/-! DEFINITION. The register-immediate family (`43_reg_imm.md`): the immediate enters as the full 32-bit value `to32(imm)`
(R77, decision D9). -/

namespace Sys2Proof.Machine

/-- R140 `ADDI rd, rs1, imm`: `x[rd] <- x[rs1] +32 to32(imm)`. -/
def execAddi (rd rs1 : RegIx) (imm : Int) (s : State) : Host.Outcome State Fault Refusal :=
  writeAndAdvance rd (add32 (s.readReg rs1) (to32 imm)) s

/-- R141 `SUBI rd, rs1, imm`: `x[rd] <- x[rs1] -32 to32(imm)`. -/
def execSubi (rd rs1 : RegIx) (imm : Int) (s : State) : Host.Outcome State Fault Refusal :=
  writeAndAdvance rd (sub32 (s.readReg rs1) (to32 imm)) s

/-- R142 `ANDI rd, rs1, imm`: `x[rd] <- x[rs1] AND to32(imm)`. -/
def execAndi (rd rs1 : RegIx) (imm : Int) (s : State) : Host.Outcome State Fault Refusal :=
  writeAndAdvance rd (and32 (s.readReg rs1) (to32 imm)) s

/-- R143 `ORI rd, rs1, imm`: `x[rd] <- x[rs1] OR to32(imm)`. -/
def execOri (rd rs1 : RegIx) (imm : Int) (s : State) : Host.Outcome State Fault Refusal :=
  writeAndAdvance rd (or32 (s.readReg rs1) (to32 imm)) s

/-- R144 `XORI rd, rs1, imm`: `x[rd] <- x[rs1] XOR to32(imm)`. -/
def execXori (rd rs1 : RegIx) (imm : Int) (s : State) : Host.Outcome State Fault Refusal :=
  writeAndAdvance rd (xor32 (s.readReg rs1) (to32 imm)) s

/-- R145 `SLLI rd, rs1, imm`: `x[rd] <- x[rs1] << ShiftAmount(to32(imm))`, logical; a negative immediate is an amount of `2^31`
or more (R113). -/
def execSlli (rd rs1 : RegIx) (imm : Int) (s : State) : Host.Outcome State Fault Refusal :=
  writeShifted rd (shiftLeft (s.readReg rs1) (to32 imm)) s

/-- R146 `SLRI rd, rs1, imm`: `x[rd] <- x[rs1] >> ShiftAmount(to32(imm))`, logical; a negative immediate is an amount of `2^31`
or more (R113). -/
def execSlri (rd rs1 : RegIx) (imm : Int) (s : State) : Host.Outcome State Fault Refusal :=
  writeShifted rd (shiftRight (s.readReg rs1) (to32 imm)) s

end Sys2Proof.Machine
end

