-- ==== Sys2Proof/Machine/Dispatch.lean ====
section
/-! DEFINITION. The meaning of every instruction: step 4 of `Execute()` (R100, R104), one arm per constructor. -/

namespace Sys2Proof.Machine

def exec (i : Instr) (s : State) : Host.Outcome State Fault Refusal :=
  match i with
  | .mv rd rs => Sys2Proof.Machine.execMv rd rs s
  | .li rd imm => Sys2Proof.Machine.execLi rd imm s
  | .add rd rs1 rs2 => Sys2Proof.Machine.execAdd rd rs1 rs2 s
  | .sub rd rs1 rs2 => Sys2Proof.Machine.execSub rd rs1 rs2 s
  | .mul rd rs1 rs2 => Sys2Proof.Machine.execMul rd rs1 rs2 s
  | .and rd rs1 rs2 => Sys2Proof.Machine.execAnd rd rs1 rs2 s
  | .or rd rs1 rs2 => Sys2Proof.Machine.execOr rd rs1 rs2 s
  | .xor rd rs1 rs2 => Sys2Proof.Machine.execXor rd rs1 rs2 s
  | .sll rd rs1 rs2 => Sys2Proof.Machine.execSll rd rs1 rs2 s
  | .slr rd rs1 rs2 => Sys2Proof.Machine.execSlr rd rs1 rs2 s
  | .addi rd rs1 imm => Sys2Proof.Machine.execAddi rd rs1 imm s
  | .subi rd rs1 imm => Sys2Proof.Machine.execSubi rd rs1 imm s
  | .andi rd rs1 imm => Sys2Proof.Machine.execAndi rd rs1 imm s
  | .ori rd rs1 imm => Sys2Proof.Machine.execOri rd rs1 imm s
  | .xori rd rs1 imm => Sys2Proof.Machine.execXori rd rs1 imm s
  | .slli rd rs1 imm => Sys2Proof.Machine.execSlli rd rs1 imm s
  | .slri rd rs1 imm => Sys2Proof.Machine.execSlri rd rs1 imm s
  | .jalr rd rs1 imm => Sys2Proof.Machine.execJalr rd rs1 imm s
  | .jal rd label => Sys2Proof.Machine.execJal rd label s
  | .lw rd offs ra => Sys2Proof.Machine.execLw rd offs ra s
  | .sw rs offs ra => Sys2Proof.Machine.execSw rs offs ra s
  | .labelLine name => Sys2Proof.Machine.execLabelLine name s
  | .emptyLine => Sys2Proof.Machine.execEmptyLine s

end Sys2Proof.Machine
end

