-- ==== Sys2Proof/Machine/Sequencer.lean ====
section
/-! DEFINITION. The sequencer and the host operations: `Execute()` on the fetched line, `step`, `runAmount`, breakpoints,
program load, readback.

Rules: `40_decode_execute.md` R100, `60_exceptions.md` R188, R197 to R207.  A host operation happens between batches and sees
a state at an instruction boundary (R54, decision D28). -/

namespace Sys2Proof.Machine

/-! ### One execution attempt -/

/-- `Line(pc)`, for `pc < N` (R10, R46, R198). -/
def fetch (s : State) : Option Text := s.lines[s.pc.toNat]?

/-- `Execute()` on the text of the line at `pc` (R100): the line is decoded, and either a decode fault is taken or the
instruction is performed. -/
def execute (line : Text) (s : State) : Host.Outcome State Fault Refusal :=
  match decode line with
  | .ok i => exec i s
  | .raise f => .next (raiseFault f s)

/-- The first attempt of a batch: a `pc` at or past the line count raises `EndOfProgram` (R188, R198); else the line at `pc`
is executed, whether or not it is a breakpoint (R200). -/
def attempt (s : State) : Host.Outcome State Fault Refusal :=
  match fetch s with
  | some line => execute line s
  | none => .next (raiseFault .endOfProgram s)

/-- The host's `step()` (R200): one attempt, in the status `Ready`.  A `Halted` session has no step (R195). -/
def stepSession (s : State) : Host.Outcome State Fault Refusal :=
  match s.status with
  | .ready => attempt s
  | .halted _ => .fault .halted

/-! ### Batches -/

/-- The loop of `runAmount` (R199): at most `n` attempts, of which the first of the batch (`first`) fails at the program end
and ignores a breakpoint, and the later ones stop with success at either.  The flag is the success flag. -/
def runBatch (first : Bool) : Nat → State → Host.Outcome (Bool × State) Fault Refusal
  | 0, s => .next (true, s)
  | n + 1, s =>
    match fetch s with
    | none => if first then .next (false, raiseFault .endOfProgram s) else .next (true, s)
    | some line =>
      if !first && decide (s.pc ∈ s.breakpoints) then .next (true, s) else
      match execute line s with
      | .next t =>
        match t.status with
        | .ready => runBatch false n t
        | .halted _ => .next (false, t)
      | .fault r => .fault r
      | .refused r => .refused r

/-- The host's `runAmount(n)` (R199), in the status `Ready` (R195).  DESIGN CHOICE: R199 says "an unsigned count" and the source
gives it no type and no range (`91_not_in_source.md` N30); here it is any natural number (notes/assumptions/34.md). -/
def runAmount (n : Nat) (s : State) : Host.Outcome (Bool × State) Fault Refusal :=
  match s.status with
  | .ready => runBatch true n s
  | .halted _ => .fault .halted

/-! ### Program load (R203, R225) -/

/-- The program store and its label table set together, as R225 asks. -/
def setProgram (lines : List Text) (s : State) : State :=
  { s with lines := lines, labels := scan lines }

/-- Whether a program's duplicate label has it refused (R108). -/
def refusedLabel (lines : List Text) : Option Text :=
  match dupLabel with
  | .refuse => duplicatedLabel lines
  | .anyDefinition => none

/-- The host's "set program text", on the lines of the text (R203): each line is trimmed, the lines are replaced and the label
table is rebuilt; nothing else changes (decision D17).  A program beyond the capacity (decision D25) or with a duplicate label
(decision D21) is refused. -/
def loadProgram (source : List Text) (s : State) : Host.Outcome State Fault Refusal :=
  if Config.maxLines.val < source.length then .refused .tooManyLines
  else if (source.map trim).any (fun line => Config.maxLineChars < line.length) then .refused .lineTooLong
  else
    match refusedLabel (source.map trim) with
    | some name => .refused (.duplicateLabel name)
    | none => .next (setProgram (source.map trim) s)

/-! ### Breakpoints (R33, R205) -/

/-- An index put into a set kept in rising order. -/
def insertIndex (k : Word) : List Word → List Word
  | [] => [k]
  | b :: rest => if k.toNat < b.toNat then k :: b :: rest else if k = b then b :: rest else b :: insertIndex k rest

/-- Add a breakpoint: no effect if it is there already. -/
def addBreakpoint (k : Word) (s : State) : State := { s with breakpoints := insertIndex k s.breakpoints }

/-- Remove a breakpoint: no effect if it is not there. -/
def removeBreakpoint (k : Word) (s : State) : State :=
  { s with breakpoints := s.breakpoints.filter fun b => b != k }

/-- Clear the breakpoints. -/
def clearBreakpoints (s : State) : State := { s with breakpoints := [] }

/-! ### Readback (R204, R206): it changes nothing -/

/-- The 32 register words in index order. -/
def readRegisters (s : State) : List Word := s.regs.toList

/-- The 128 memory words in block-major order, which is ascending address order. -/
def readMemory (s : State) : List Word :=
  (List.range Config.memWords).map fun k => s.mem.wordAt (k / Config.wordsPerBlock) (k % Config.wordsPerBlock)

/-- The record the error message renders, if one is recorded in this session; the wording is not modelled (R193, R206). -/
def readError (s : State) : Option FaultRecord := s.lastError

/-- A new session (R203, R224). -/
def newSession : State := State.reset

/-! ### Placing one line where the next step fetches (for `State.withFetchWord`) -/

/-- The program with `line` at index `k`, padded with empty lines where it is shorter. -/
def placeLine (k : Nat) (line : Text) (lines : List Text) : List Text :=
  lines.take k ++ List.replicate (k - lines.length) [] ++ line :: lines.drop (k + 1)

/-- The program with a line at its end that defines the label a `JAL` line names, where the program defines it nowhere. -/
def withLabelOf (line : Text) (lines : List Text) : List Text :=
  match decode line with
  | .ok (.jal _ label) => if label ∈ labelNames lines then lines else lines ++ [label ++ text ":"]
  | _ => lines

/-- The state with `line` stored where the next step fetches, its label defined, and the session `Ready`. -/
def installLine (line : Text) (s : State) : State :=
  { setProgram (withLabelOf line (placeLine s.pc.toNat line s.lines)) s with status := .ready }

end Sys2Proof.Machine
end

