-- ==== Sys2Proof/Machine/Step.lean ====
section
/-! DEFINITION. One step of the machine: the host operation `step()` (R200). -/

namespace Sys2Proof.Machine

/-- One step: in the status `Ready` the line at `pc` is executed, or a fault is taken; a `Halted` session has no step. -/
def step (s : State) : Host.Outcome State Fault Refusal := Sys2Proof.Machine.stepSession s

/-- The state whose next step runs the table instruction `w` of `nbits` bits: its line at index `pc` of the program store, the
label it names defined, the label table rebuilt, the status `Ready` (notes/assumptions/27.md). -/
def State.withFetchWord (s : State) (nbits w : Nat) : State :=
  Sys2Proof.Machine.installLine (Sys2Proof.tableLine nbits w) s

end Sys2Proof.Machine
end

