-- ==== Sys2Proof/WellFormed.lean ====
section
/-! DEFINITION. Which terms of `Instr` are instructions of the hardware: every register operand has a name (R23, R70 to
R74), every immediate is in the range an immediate literal may have (R76), every label is a `WORD` (R62, R64, R67). -/

namespace Sys2Proof

/-- The check, one line per constructor. -/
def Instr.wellFormed : Instr → Bool
  | .mv rd rs => regNameable rd && regNameable rs
  | .li rd imm => regNameable rd && immInRange imm
  | .add rd rs1 rs2 | .sub rd rs1 rs2 | .mul rd rs1 rs2 | .and rd rs1 rs2 | .or rd rs1 rs2 | .xor rd rs1 rs2
  | .sll rd rs1 rs2 | .slr rd rs1 rs2 => regNameable rd && regNameable rs1 && regNameable rs2
  | .addi rd rs1 imm | .subi rd rs1 imm | .andi rd rs1 imm | .ori rd rs1 imm | .xori rd rs1 imm | .slli rd rs1 imm
  | .slri rd rs1 imm | .jalr rd rs1 imm => regNameable rd && regNameable rs1 && immInRange imm
  | .jal rd label => regNameable rd && isWord label
  | .lw r offs ra | .sw r offs ra => regNameable r && immInRange offs && regNameable ra
  | .labelLine name => isWord name
  | .emptyLine => true

end Sys2Proof
end

