-- ==== Sys2Proof/Safety.lean ====
section
/-! DEFINITION. The terms the statements use: the invariant of a session, what a completed line may change, what taking a
fault leaves, and the declarative form of the patterns. -/

namespace Sys2Proof.Machine

/-! ### The invariant -/

/-- What holds at every instruction boundary of a session: memory in its canonical form; the zero register zero (R21); every
line trimmed (R31); a line count that fits the `pc` (R31); the label table that of the program (R32, R225); the breakpoint
set without repeats, in order (R33); every tag `Invalid` (R30); the last error that of the status (R34, R195). -/
structure SessionInv (s : State) : Prop where
  memory : Memory.wf s.mem
  zero : s.readReg 0 = 0
  trimmed : ∀ line ∈ s.lines, isTrimmed line = true
  lineCount : s.lines.length < 2 ^ 32
  labels : s.labels = scan s.lines
  breakpoints : s.breakpoints.Pairwise fun a b => a.toNat < b.toNat
  tags : ∀ b : Fin 8, s.tags[b] = CoherenceTag.invalid
  error : (s.status = .ready ∧ s.lastError = none) ∨ ∃ r, s.status = .halted r ∧ s.lastError = some r

/-! ### What a line may change -/

/-- Everything but the registers, the `pc` and the memory is as it was. -/
structure SameSession (s t : State) : Prop where
  tags : t.tags = s.tags
  lines : t.lines = s.lines
  labels : t.labels = s.labels
  breakpoints : t.breakpoints = s.breakpoints
  status : t.status = s.status
  lastError : t.lastError = s.lastError

/-- `t` is `s` after a completed line whose one register result is `v` in `rd` and which goes on at line `p`: `rd` holds `v`
(0 if it is register 0, R22), register 0 is 0, and nothing else has changed. -/
structure WritesRegister (s t : State) (rd : RegIx) (v p : Word) : Prop where
  dest : t.readReg rd = if rd = 0 then 0 else v
  zero : t.readReg 0 = 0
  others : ∀ r, r ≠ rd → r ≠ 0 → t.readReg r = s.readReg r
  pc : t.pc = p
  memory : ∀ a, t.mem.byteAt a = s.mem.byteAt a
  session : SameSession s t

/-- `t` is `s` after a completed line that writes no register and goes on at line `p`; its memory is not spoken of. -/
structure WritesNoRegister (s t : State) (p : Word) : Prop where
  zero : t.readReg 0 = 0
  others : ∀ r, r ≠ 0 → t.readReg r = s.readReg r
  pc : t.pc = p
  session : SameSession s t

/-- The memory of `t` is that of `s` with the word `v` in the four bytes from `ea` on (byte order: decision D15). -/
structure StoresWord (s t : State) (ea v : Word) : Prop where
  stored : ∀ k, k < 4 → t.mem.byteAt (ea.toNat + k) = byteOfWord v k
  others : ∀ a, (a < ea.toNat ∨ ea.toNat + 4 ≤ a) → t.mem.byteAt a = s.mem.byteAt a

/-- `t` is `s` after the fault `f` was taken (R192, R193): the record and the status are those of the fault, and nothing else
has changed. -/
structure TakesFault (s t : State) (f : FaultCause) : Prop where
  status : t.status = .halted { cause := f, line := s.pc, lineText := s.lines[s.pc.toNat]? }
  lastError : t.lastError = some { cause := f, line := s.pc, lineText := s.lines[s.pc.toNat]? }
  registers : ∀ r, t.readReg r = s.readReg r
  pc : t.pc = s.pc
  memory : ∀ a, t.mem.byteAt a = s.mem.byteAt a
  tags : t.tags = s.tags
  lines : t.lines = s.lines
  labels : t.labels = s.labels
  breakpoints : t.breakpoints = s.breakpoints

/-- An access at this address is legal: aligned and in bounds (R43, R44, R48). -/
def LegalAddress (a : Word) : Prop := a.toNat % 4 = 0 ∧ a.toNat < 512

/-! ### Lines -/

/-- The session is `Ready` and the line at `pc` is `line`: the next step executes it. -/
def AtLine (s : State) (line : Text) : Prop := s.status = .ready ∧ s.lines[s.pc.toNat]? = some line

/-- The next step takes the fault `f`. -/
def StepFaults (s : State) (f : FaultCause) : Prop := ∃ t, step s = .next t ∧ TakesFault s t f

/-- `k` steps, one after another, from a state. -/
def runSteps : Nat → State → Host.Outcome State Fault Refusal
  | 0, s => .next s
  | k + 1, s =>
    match step s with
    | .next t => runSteps k t
    | .fault r => .fault r
    | .refused r => .refused r

/-- The state with other coherence-state tags. -/
def withTags (tags : Vector CoherenceTag 8) (s : State) : State := { s with tags := tags }

/-- An outcome with a function applied to the answer; a fault of the model and a refusal stay as they are. -/
def mapNext {α β : Type} (f : α → β) : Host.Outcome α Fault Refusal → Host.Outcome β Fault Refusal
  | .next a => .next (f a)
  | .fault r => .fault r
  | .refused r => .refused r

/-- The fields of the pattern a line must have, in the order of the text, without the operator (R63). -/
def fieldsOf : Shape → Text → Option (List Text)
  | .label, line => (matchLabel line).map fun name => [name]
  | .twoOp, line => (matchTwoOp line).map fun f => [f.f1, f.f2]
  | .rl, line => (matchRl line).map fun f => [f.f1, f.f2]
  | .rrr, line => (matchRrr line).map fun f => [f.f1, f.f2, f.f3]
  | .rri, line => (matchRri line).map fun f => [f.f1, f.f2, f.f3]
  | .rob, line => (matchRob line).map fun f => [f.f1, f.f2, f.f3]

/-- What the rule of a register-register operator says of a line with that operator (R130 to R137): a line that is not `RRR`
raises `ShapeMismatch`; a register field that is no register name raises `UnknownRegister`; otherwise the line completes and
`rd` holds the value `result` relates to the old values of `rs1` and `rs2`. -/
def RrrLineRule (op : Text) (result : Word → Word → Word → Prop) : Prop :=
  ∀ s line, AtLine s line → operatorOf line = op →
    (matchRrr line = none → StepFaults s (.shapeMismatch (text "OP RD, RS1, RS2"))) ∧
    ∀ f, matchRrr line = some f →
      (∀ rd rs1 rs2, regResolve f.f1 = some rd → regResolve f.f2 = some rs1 → regResolve f.f3 = some rs2 →
        ∃ t v, step s = .next t ∧ result (s.readReg rs1) (s.readReg rs2) v ∧ WritesRegister s t rd v (s.pc + 1)) ∧
      (regResolve f.f1 = none ∨ regResolve f.f2 = none ∨ regResolve f.f3 = none →
        ∃ tok, tok ∈ [f.f1, f.f2, f.f3] ∧ regResolve tok = none ∧ StepFaults s (.unknownRegister tok))

/-- What the rule of a register-immediate operator says of a line with that operator (R140 to R146): a line that is not `RRI`
raises `ShapeMismatch`; a field that does not resolve raises its fault; otherwise the line completes and `rd` holds the value
`result` relates to the old value of `rs1` and the integer. -/
def RriLineRule (op : Text) (result : Word → Int → Word → Prop) : Prop :=
  ∀ s line, AtLine s line → operatorOf line = op →
    (matchRri line = none → StepFaults s (.shapeMismatch (text "OP RD, RS1, IMM"))) ∧
    ∀ f, matchRri line = some f →
      (∀ rd rs1 imm, regResolve f.f1 = some rd → regResolve f.f2 = some rs1 → parseImm f.f3 = some imm →
        ∃ t v, step s = .next t ∧ result (s.readReg rs1) imm v ∧ WritesRegister s t rd v (s.pc + 1)) ∧
      (regResolve f.f1 = none ∨ regResolve f.f2 = none ∨ parseImm f.f3 = none →
        (∃ tok, tok ∈ [f.f1, f.f2] ∧ regResolve tok = none ∧ StepFaults s (.unknownRegister tok)) ∨
        (parseImm f.f3 = none ∧ StepFaults s (.invalidImmediate f.f3)))

/-! ### The patterns as forms (R62, R64 to R69) -/

/-- `GAP`: one or more whitespace characters. -/
def IsGap (g : Text) : Prop := g ≠ [] ∧ ∀ b ∈ g, isSpace b = true

/-- What follows the comma in `SEP`: zero or more whitespace characters. -/
def IsPad (g : Text) : Prop := ∀ b ∈ g, isSpace b = true

/-- `VAL`: an optional `-`, then a `WORD`. -/
def IsVal (t : Text) : Prop := isWord t = true ∨ ∃ w, t = ch '-' :: w ∧ isWord w = true

/-- The text of `WORD GAP WORD SEP`. -/
def headText (op gap f1 pad : Text) : Text := op ++ gap ++ f1 ++ [ch ','] ++ pad

end Sys2Proof.Machine
end

