-- ==== Sys2Proof/Certificates/Slice0/Obligations.lean ====
section
/-! DEFINITION. The statements for the provers, one `def Obligations.<Name> : Prop` each.  A docstring begins with the
statement's basis: a rule it formalises whole ("R22"), or the places of the spec it rests on ("from ..."), with the decisions of
the spec and the log entries it uses. -/

open Sys2Proof Sys2Proof.Machine

/-- Formalises R221. In State.reset each of the 128 words M[b][w], b in 0..7 and w in 0..15, reads 0, and the
coherence-state tag of each of the 8 blocks is Invalid. -/
def Obligations.ResetMemoryIsZeroAndTagsAreInvalid : Prop :=
  (∀ b w, b < 8 → w < 16 → State.reset.mem.wordAt b w = 0) ∧
  ∀ b : Fin 8, State.reset.tags[b] = CoherenceTag.invalid

/-- Formalises R223. In State.reset the breakpoint set is empty, the status is Ready, and there is no last fault record,
so the host's readback of the error gives none. -/
def Obligations.ResetSessionIsReadyWithoutErrorOrBreakpoints : Prop :=
  State.reset.breakpoints = [] ∧ State.reset.status = .ready ∧ State.reset.lastError = none ∧ readError State.reset = none

/-- From 70_reset_and_hazards.md R220, R222; 92_eei_decisions.md D16. The values of x1 to x31 and of the pc and the
empty program are the spec's own decision D16 (log entry 13), not the document's; x0 = 0 is the document's. In
State.reset every register reads 0, the pc is 0, there are no lines and no labels, and a step takes EndOfProgram. -/
def Obligations.ResetRegistersPcAndProgramAreZeroAndEmpty : Prop :=
  (∀ r, State.reset.readReg r = 0) ∧ State.reset.pc = 0 ∧ State.reset.lines = [] ∧ State.reset.labels = [] ∧
  StepFaults State.reset .endOfProgram

/-- From 10_state.md R21, R30 to R34; 70_reset_and_hazards.md R220 to R223. SessionInv State.reset: memory canonical, x0
= 0, lines trimmed and fewer than 2^32, label table that of the program, breakpoints in rising order, tags Invalid,
last error that of the status. -/
def Obligations.InvariantHoldsAtReset : Prop :=
  SessionInv State.reset

/-- From 10_state.md R21, R22, R30 to R35; 20_memory.md R42; 60_exceptions.md R192, R195. For every state s with
SessionInv s, if step s answers next t then SessionInv t. That the last error is the status's uses decision D18
(Halted is final, log 15). -/
def Obligations.EveryStepKeepsTheInvariant : Prop :=
  ∀ s t, SessionInv s → step s = .next t → SessionInv t

/-- From 60_exceptions.md R199, R203, R205; 10_state.md R31 to R33. For every state s with SessionInv s: the state a
batch runAmount(n) ends in, the state an accepted program load leaves, and the states after adding, removing and
clearing breakpoints all satisfy SessionInv. -/
def Obligations.HostOperationsKeepTheInvariant : Prop :=
  ∀ s, SessionInv s →
    (∀ n b t, runAmount n s = .next (b, t) → SessionInv t) ∧
    (∀ source t, loadProgram source s = .next t → SessionInv t) ∧
    (∀ k, SessionInv (addBreakpoint k s)) ∧ (∀ k, SessionInv (removeBreakpoint k s)) ∧ SessionInv (clearBreakpoints s)

/-- From 20_memory.md R40, R41, R43 to R45; 92_eei_decisions.md D14, D15. For every memory, address and value: an
address that is no multiple of 4 raises UnalignedAccess for reads and writes, whether or not it is in bounds (that
alignment comes first is decision D14, log 11); a multiple of 4 from 512 on raises OutOfBounds; otherwise the read
gives the word whose byte k is the byte at address + k (little-endian, decision D15, log 12), and the write answers
a memory in which, if the old one is canonical, byte k of the value stands at address + k and every other byte is as
it was. -/
def Obligations.AlignmentThenBoundsDecideAnAccess : Prop :=
  ∀ (m : Memory) (addr v : Word),
    (addr.toNat % 4 ≠ 0 →
      memRead m addr = .raise (.unalignedAccess addr) ∧ memWrite m addr v = .raise (.unalignedAccess addr)) ∧
    (addr.toNat % 4 = 0 → 512 ≤ addr.toNat →
      memRead m addr = .raise (.outOfBounds addr) ∧ memWrite m addr v = .raise (.outOfBounds addr)) ∧
    (LegalAddress addr →
      (∃ w, memRead m addr = .ok w ∧ ∀ k, k < 4 → byteOfWord w k = m.byteAt (addr.toNat + k)) ∧
      ∃ m', memWrite m addr v = .ok m' ∧ (Memory.wf m →
        (∀ k, k < 4 → m'.byteAt (addr.toNat + k) = byteOfWord v k) ∧
        ∀ a, (a < addr.toNat ∨ addr.toNat + 4 ≤ a) → m'.byteAt a = m.byteAt a))

/-- Formalises R42. For every canonical memory: a write to a misaligned in-bounds address raises UnalignedAccess, to an
aligned address out of bounds OutOfBounds, to an address that is both one of the two (which one is rule R45, not
this rule); to a legal address it answers a memory in which a read of the address gives the value and a read at
every other address gives what it gave before; the new memory is canonical. -/
def Obligations.AWriteChangesExactlyOneWord : Prop :=
  ∀ (m : Memory) (addr v : Word), Memory.wf m →
    (addr.toNat % 4 ≠ 0 → addr.toNat < 512 → memWrite m addr v = .raise (.unalignedAccess addr)) ∧
    (addr.toNat % 4 = 0 → 512 ≤ addr.toNat → memWrite m addr v = .raise (.outOfBounds addr)) ∧
    (addr.toNat % 4 ≠ 0 → 512 ≤ addr.toNat →
      memWrite m addr v = .raise (.unalignedAccess addr) ∨ memWrite m addr v = .raise (.outOfBounds addr)) ∧
    (LegalAddress addr →
      ∃ m', memWrite m addr v = .ok m' ∧ Memory.wf m' ∧ memRead m' addr = .ok v ∧
        ∀ addr', addr' ≠ addr → memRead m' addr' = memRead m addr')

/-- Formalises R22. A write to register 0 is performed like any other; whatever state a step starts from, if the line
completes (the status stays Ready) register 0 then reads 0, and if it raises a fault (the status is Halted) no
register, not the pc and no byte of memory has changed. With register 0 as destination an LW still takes the fault
of its access, a JALR (from another register) still goes to its target and a JAL to its label, and register 0 is 0. -/
def Obligations.ZeroRegisterIsErasedAfterEveryLine : Prop :=
  (∀ (s : State) (v : Word), (s.writeReg 0 v).readReg 0 = v) ∧
  (∀ s offs ra f, memRead s.mem (effectiveAddress s offs ra) = .raise f →
    ∃ t, exec (.lw 0 offs ra) s = .next t ∧ TakesFault s t f) ∧
  (∀ s rs1 imm, rs1 ≠ 0 →
    ∃ t, exec (.jalr 0 rs1 imm) s = .next t ∧ WritesRegister s t 0 0 (s.readReg rs1 + BitVec.ofInt 32 imm)) ∧
  (∀ s label p, labelLookup s.labels label = some p →
    ∃ t, exec (.jal 0 label) s = .next t ∧ WritesRegister s t 0 0 p) ∧
  ∀ s t, step s = .next t →
    (t.status = .ready → t.readReg 0 = 0) ∧
    (t.status ≠ .ready → (∀ r, t.readReg r = s.readReg r) ∧ t.pc = s.pc ∧ ∀ a, t.mem.byteAt a = s.mem.byteAt a)

/-- Formalises R192. If step s answers next t and t is Halted, then every register, the pc, every byte of memory, the
tags, the lines, the label table and the breakpoint set of t are those of s. -/
def Obligations.FaultsAreTakenBeforeAnyChange : Prop :=
  ∀ s t, step s = .next t → t.status ≠ .ready →
    (∀ r, t.readReg r = s.readReg r) ∧ t.pc = s.pc ∧ (∀ a, t.mem.byteAt a = s.mem.byteAt a) ∧ t.tags = s.tags ∧
    t.lines = s.lines ∧ t.labels = s.labels ∧ t.breakpoints = s.breakpoints

/-- From 60_exceptions.md R193, R194, R198; 92_eei_decisions.md D26. If step s answers next t and t is Halted, there is
one of the eight faults f such that t is s with the record (f, pc, text of the line at pc if there is one) as last
error and as the error of the status, and f is EndOfProgram exactly if there is no line at pc. The content of the
record is decision D26 (log 23). -/
def Obligations.FaultRecordNamesCauseLineAndText : Prop :=
  ∀ s t, step s = .next t → t.status ≠ .ready →
    ∃ f, TakesFault s t f ∧ (f = .endOfProgram ↔ s.lines[s.pc.toNat]? = none) ∧
      readError t = some { cause := f, line := s.pc, lineText := s.lines[s.pc.toNat]? }

/-- From 30_encoding.md R85; 40_decode_execute.md R100; 60_exceptions.md R189. For every state whose status is Ready,
whatever the line at pc is, step answers a next state. For shifts by 32 or more this is the spec's setting mask5
(decision D10, log 7). -/
def Obligations.AReadySessionAlwaysSteps : Prop :=
  ∀ s, s.status = .ready → ∃ t, step s = .next t

/-- From 60_exceptions.md R195; 92_eei_decisions.md D18. For every state whose status is Halted, step and runAmount(n)
answer the model's fault halted. That Halted is final is the spec's own decision D18. -/
def Obligations.AHaltedSessionHasNoStep : Prop :=
  ∀ s r, s.status = .halted r → step s = .fault .halted ∧ ∀ n, runAmount n s = .fault .halted

/-- From 10_state.md R28; 45_load_store.md R161. If step s answers next t and the line at pc does not decode to an SW,
the memory of t is the memory of s, as data and at every byte. -/
def Obligations.OnlyStoresChangeMemory : Prop :=
  ∀ s t, step s = .next t →
    (∀ line rs offs ra, s.lines[s.pc.toNat]? = some line → decode line ≠ .ok (.sw rs offs ra)) →
    t.mem = s.mem ∧ ∀ a, t.mem.byteAt a = s.mem.byteAt a

/-- Formalises R52. A step and a batch leave the lines and the label table as they were, whatever they store; so do the
breakpoint operations; and the line fetched does not depend on the data memory. -/
def Obligations.ProgramIsSeparateFromMemory : Prop :=
  (∀ s t, step s = .next t → t.lines = s.lines ∧ t.labels = s.labels) ∧
  (∀ n s b t, runAmount n s = .next (b, t) → t.lines = s.lines ∧ t.labels = s.labels) ∧
  (∀ k s, (addBreakpoint k s).lines = s.lines ∧ (addBreakpoint k s).labels = s.labels ∧
    (removeBreakpoint k s).lines = s.lines ∧ (removeBreakpoint k s).labels = s.labels) ∧
  (∀ s, (clearBreakpoints s).lines = s.lines ∧ (clearBreakpoints s).labels = s.labels) ∧
  ∀ (s : State) (m : Memory), fetch { s with mem := m } = fetch s

/-- Formalises R30. The 8 tags are Invalid at reset; a step, a batch, a program load and the breakpoint operations leave
them as they were. No operation reads them: from the same state with other tags a step, a batch, a program load and
the breakpoint operations answer the same (a next state with those other tags, the same success flag, the same fault
or refusal), and the register, memory and error readbacks are the same. -/
def Obligations.TagsAreNeitherReadNorChanged : Prop :=
  (∀ b : Fin 8, State.reset.tags[b] = CoherenceTag.invalid) ∧
  (∀ s t, step s = .next t → t.tags = s.tags) ∧
  (∀ n s b t, runAmount n s = .next (b, t) → t.tags = s.tags) ∧
  (∀ source s t, loadProgram source s = .next t → t.tags = s.tags) ∧
  (∀ k s, (addBreakpoint k s).tags = s.tags ∧ (removeBreakpoint k s).tags = s.tags ∧ (clearBreakpoints s).tags = s.tags) ∧
  ∀ (s : State) (tags : Vector CoherenceTag 8),
    step (withTags tags s) = mapNext (withTags tags) (step s) ∧
    (∀ n, runAmount n (withTags tags s) = mapNext (fun r => (r.1, withTags tags r.2)) (runAmount n s)) ∧
    (∀ source, loadProgram source (withTags tags s) = mapNext (withTags tags) (loadProgram source s)) ∧
    (∀ k, addBreakpoint k (withTags tags s) = withTags tags (addBreakpoint k s) ∧
      removeBreakpoint k (withTags tags s) = withTags tags (removeBreakpoint k s)) ∧
    clearBreakpoints (withTags tags s) = withTags tags (clearBreakpoints s) ∧
    readRegisters (withTags tags s) = readRegisters s ∧ readMemory (withTags tags s) = readMemory s ∧
    readError (withTags tags s) = readError s

/-- Formalises R23. Every register name resolves to an index in 0 to 27 or to 29, and each of these is reached; index 29
is named only by s4 and index 20 only by x20; no step and no batch, from any state, changes x28, x30 or x31; and a
step from the same state with another value in one of them gives the same next state with that value there, so no
instruction reads them. -/
def Obligations.UnnamedRegistersAreNeverReached : Prop :=
  (∀ tok i, regResolve tok = some i → i.val ≤ 27 ∨ i = 29) ∧
  (∀ i : RegIx, i.val ≤ 27 ∨ i = 29 → ∃ tok, regResolve tok = some i) ∧
  (∀ tok, regResolve tok = some 29 ↔ tok = text "s4") ∧ (∀ tok, regResolve tok = some 20 ↔ tok = text "x20") ∧
  (∀ s t, step s = .next t → ∀ r : RegIx, r = 28 ∨ r = 30 ∨ r = 31 → t.readReg r = s.readReg r) ∧
  (∀ s t v, step s = .next t → ∀ r : RegIx, r = 28 ∨ r = 30 ∨ r = 31 → step (s.writeReg r v) = .next (t.writeReg r v)) ∧
  ∀ n s b t, runAmount n s = .next (b, t) → ∀ r : RegIx, r = 28 ∨ r = 30 ∨ r = 31 → t.readReg r = s.readReg r

/-- From 30_encoding.md R64 to R69, R71 to R73; 93_implementation_defined.md G1; 95_test_vectors.md part 3. The lines MV
x5, x20; LI s4, 9; ADD x1, x1, x1; ADDI sp, sp, -16; JALR x0, ra, 0; JAL ra, double; LW x1, 0(x0); SW x5, -4(x2);
double: and the empty line decode to the instructions the spec gives them. That sp is register 2 and ra register 1
is presumed (general knowledge, G1, log 4); that s4 is register 29 is R73. -/
def Obligations.SampleLinesDecode : Prop :=
  decode (text "MV x5, x20") = .ok (.mv 5 20) ∧ decode (text "LI s4, 9") = .ok (.li 29 9) ∧
  decode (text "ADD x1, x1, x1") = .ok (.add 1 1 1) ∧ decode (text "ADDI sp, sp, -16") = .ok (.addi 2 2 (-16)) ∧
  decode (text "JALR x0, ra, 0") = .ok (.jalr 0 1 0) ∧ decode (text "JAL ra, double") = .ok (.jal 1 (text "double")) ∧
  decode (text "LW x1, 0(x0)") = .ok (.lw 1 0 0) ∧ decode (text "SW x5, -4(x2)") = .ok (.sw 5 (-4) 2) ∧
  decode (text "double:") = .ok (.labelLine (text "double")) ∧ decode (text "") = .ok .emptyLine

/-- From 30_encoding.md R60 to R82; 40_decode_execute.md R100 to R103. For every well-formed instruction i, of every
constructor, with every nameable register, every immediate in range and every label that is a WORD, decode (encode
i) is i. -/
def Obligations.DecodeOfEncodeIsIdentity : Prop :=
  ∀ i : Instr, i.wellFormed = true → decode (encode i) = .ok i

/-- From 30_encoding.md R62, R70 to R76, R82. For every line, if decode answers the instruction i then every register of
i has a name, its immediate is in the signed 32-bit range, and its label is a WORD. -/
def Obligations.DecodedInstructionsAreWellFormed : Prop :=
  ∀ line i, decode line = .ok i → i.wellFormed = true

/-- From 30_encoding.md R79 to R85; 40_decode_execute.md R101, R102. For every line: the empty line and a label line
decode to the no-op lines; otherwise a token that is no operator's spelling raises UnknownOperator with the token;
otherwise the operator m decides: if its pattern does not match, ShapeMismatch with that pattern's form text is
raised, and if it matches, the outcome is an instruction or UnknownRegister or InvalidImmediate with one of the
pattern's fields. -/
def Obligations.EveryLineHasOneDecodeOutcome : Prop :=
  ∀ line,
    (line = [] → decode line = .ok .emptyLine) ∧
    (∀ name, matchLabel line = some name → decode line = .ok (.labelLine name)) ∧
    (line ≠ [] → matchLabel line = none → (∀ m, operatorOf line ≠ spelling m) →
      decode line = .raise (.unknownOperator (operatorOf line))) ∧
    ∀ m, line ≠ [] → matchLabel line = none → operatorOf line = spelling m →
      (fieldsOf (shapeOf m) line = none → decode line = .raise (.shapeMismatch (formText (shapeOf m)))) ∧
      ∀ fs, fieldsOf (shapeOf m) line = some fs →
        (∃ i, decode line = .ok i) ∨
        ∃ tok ∈ fs, decode line = .raise (.unknownRegister tok) ∨ decode line = .raise (.invalidImmediate tok)

/-- From 40_decode_execute.md R103; 60_exceptions.md R191; 92_eei_decisions.md D13. For the patterns of three operands:
if f1 is no register name the fault is UnknownRegister(f1) whatever the others are; if f1 is one and f2 does not
resolve, the fault is f2's; if both do and f3 does not, it is f3's. The order is the spec's own decision D13. -/
def Obligations.TheFirstFailingFieldDecides : Prop :=
  ∀ line f,
    (∀ m, operatorOf line = spelling m → shapeOf m = .rrr → matchRrr line = some f →
      (regResolve f.f1 = none → decode line = .raise (.unknownRegister f.f1)) ∧
      (regResolve f.f1 ≠ none → regResolve f.f2 = none → decode line = .raise (.unknownRegister f.f2)) ∧
      (regResolve f.f1 ≠ none → regResolve f.f2 ≠ none → regResolve f.f3 = none →
        decode line = .raise (.unknownRegister f.f3))) ∧
    (∀ m, operatorOf line = spelling m → shapeOf m = .rri → matchRri line = some f →
      (regResolve f.f1 = none → decode line = .raise (.unknownRegister f.f1)) ∧
      (regResolve f.f1 ≠ none → regResolve f.f2 = none → decode line = .raise (.unknownRegister f.f2)) ∧
      (regResolve f.f1 ≠ none → regResolve f.f2 ≠ none → parseImm f.f3 = none →
        decode line = .raise (.invalidImmediate f.f3))) ∧
    (∀ m, operatorOf line = spelling m → shapeOf m = .rob → matchRob line = some f →
      (regResolve f.f1 = none → decode line = .raise (.unknownRegister f.f1)) ∧
      (regResolve f.f1 ≠ none → parseImm f.f2 = none → decode line = .raise (.invalidImmediate f.f2)) ∧
      (regResolve f.f1 ≠ none → parseImm f.f2 ≠ none → regResolve f.f3 = none →
        decode line = .raise (.unknownRegister f.f3)))

/-- Formalises R87. For every line: the fields of an RL match are those of a 2OP match; the fields of an RRI match whose
third operand does not begin with a minus are those of an RRR match; a line that matches LABEL matches none of the
five operand patterns. -/
def Obligations.PatternsOverlapAsRuled : Prop :=
  ∀ line,
    (∀ f, matchRl line = some f → matchTwoOp line = some f) ∧
    (∀ f, matchRri line = some f → f.f3.head? ≠ some (ch '-') → matchRrr line = some f) ∧
    ∀ name, matchLabel line = some name →
      matchTwoOp line = none ∧ matchRrr line = none ∧ matchRl line = none ∧ matchRri line = none ∧ matchRob line = none

/-- From 30_encoding.md R61 to R69; 92_eei_decisions.md D2, D3, D4, D5. For every byte: it is whitespace, a digit or a
word character exactly if the table of R61 lists it (decision D2, log 1). For every line and fields: the matcher of
LABEL, 2OP, RRR, RL, RRI, ROB answers those fields exactly if the line is the fields joined by the separators of the
form (GAP after the operator, comma and optional whitespace between operands, parentheses for ROB, a colon for
LABEL) and each field is of its token class. The forms are decisions D3 to D5 (log 2). -/
def Obligations.PatternsMatchExactlyTheirForms : Prop :=
  (∀ b : Byte,
    (isSpace b = true ↔ b.toNat ∈ [0x20, 0x09, 0x0A, 0x0B, 0x0C, 0x0D]) ∧
    (isDigit b = true ↔ 0x30 ≤ b.toNat ∧ b.toNat ≤ 0x39) ∧
    (isWordChar b = true ↔ (0x41 ≤ b.toNat ∧ b.toNat ≤ 0x5A) ∨ (0x61 ≤ b.toNat ∧ b.toNat ≤ 0x7A) ∨
      (0x30 ≤ b.toNat ∧ b.toNat ≤ 0x39) ∨ b.toNat = 0x5F)) ∧
  ∀ line : Text,
    (∀ name, matchLabel line = some name ↔ isWord name = true ∧ line = name ++ [ch ':']) ∧
    (∀ f, matchTwoOp line = some f ↔ ∃ g pad, line = headText f.op g f.f1 pad ++ f.f2 ∧ isWord f.op = true ∧ IsGap g ∧
      isWord f.f1 = true ∧ IsPad pad ∧ IsVal f.f2) ∧
    (∀ f, matchRl line = some f ↔ ∃ g pad, line = headText f.op g f.f1 pad ++ f.f2 ∧ isWord f.op = true ∧ IsGap g ∧
      isWord f.f1 = true ∧ IsPad pad ∧ isWord f.f2 = true) ∧
    (∀ f, matchRrr line = some f ↔ ∃ g pad pad', line = headText f.op g f.f1 pad ++ f.f2 ++ [ch ','] ++ pad' ++ f.f3 ∧
      isWord f.op = true ∧ IsGap g ∧ isWord f.f1 = true ∧ IsPad pad ∧ isWord f.f2 = true ∧ IsPad pad' ∧ isWord f.f3 = true) ∧
    (∀ f, matchRri line = some f ↔ ∃ g pad pad', line = headText f.op g f.f1 pad ++ f.f2 ++ [ch ','] ++ pad' ++ f.f3 ∧
      isWord f.op = true ∧ IsGap g ∧ isWord f.f1 = true ∧ IsPad pad ∧ isWord f.f2 = true ∧ IsPad pad' ∧ isInt f.f3 = true) ∧
    ∀ f, matchRob line = some f ↔ ∃ g pad, line = headText f.op g f.f1 pad ++ f.f2 ++ [ch '('] ++ f.f3 ++ [ch ')'] ∧
      isWord f.op = true ∧ IsGap g ∧ isWord f.f1 = true ∧ IsPad pad ∧ isInt f.f2 = true ∧ isWord f.f3 = true

/-- Formalises R71. For every N, the letter x followed by the decimal numeral of N without leading zeros resolves to
index N if N is at most 27, and is no register name otherwise. -/
def Obligations.NumericNamesResolveToTheirNumber : Prop :=
  ∀ n : Nat, regResolve (ch 'x' :: natText n) = if n ≤ 27 then some (Fin.ofNat 32 n) else none

/-- From 30_encoding.md R70, R72, R73; 93_implementation_defined.md G1, U3; 92_eei_decisions.md D7. Each alias name
resolves to the index rule R72 lists (the indices are general knowledge, G1, log 4), s4 to 29 (R73), and the
resolver's table has 57 distinct keys. -/
def Obligations.AliasNamesResolveAsListed : Prop :=
  regNames.length = 57 ∧ (regNames.map Prod.fst).Nodup ∧
  regResolve (text "zero") = some 0 ∧ regResolve (text "ra") = some 1 ∧ regResolve (text "sp") = some 2 ∧
  regResolve (text "gp") = some 3 ∧ regResolve (text "tp") = some 4 ∧ regResolve (text "t0") = some 5 ∧
  regResolve (text "t1") = some 6 ∧ regResolve (text "t2") = some 7 ∧ regResolve (text "s0") = some 8 ∧
  regResolve (text "fp") = some 8 ∧ regResolve (text "s1") = some 9 ∧ regResolve (text "a0") = some 10 ∧
  regResolve (text "a1") = some 11 ∧ regResolve (text "a2") = some 12 ∧ regResolve (text "a3") = some 13 ∧
  regResolve (text "a4") = some 14 ∧ regResolve (text "a5") = some 15 ∧ regResolve (text "a6") = some 16 ∧
  regResolve (text "a7") = some 17 ∧ regResolve (text "s2") = some 18 ∧ regResolve (text "s3") = some 19 ∧
  regResolve (text "s4") = some 29 ∧ regResolve (text "s5") = some 21 ∧ regResolve (text "s6") = some 22 ∧
  regResolve (text "s7") = some 23 ∧ regResolve (text "s8") = some 24 ∧ regResolve (text "s9") = some 25 ∧
  regResolve (text "s10") = some 26 ∧ regResolve (text "s11") = some 27

/-- From 30_encoding.md R75, R76; 92_eei_decisions.md D8. For every integer i, its decimal text parses to i if i is in
the range and to nothing otherwise; whatever parses is an INT in the range; a zero before any non-empty run of
digits changes nothing, with a minus before it or without, and -0 is 0. Syntax and range are the spec's own decision
D8 (log 5). -/
def Obligations.ImmediateLiteralsAreSignedDecimals : Prop :=
  (∀ i : Int, parseImm (intText i) = if -2147483648 ≤ i ∧ i ≤ 2147483647 then some i else none) ∧
  (∀ tok i, parseImm tok = some i → isInt tok = true ∧ -2147483648 ≤ i ∧ i ≤ 2147483647) ∧
  (∀ ds : Text, ds ≠ [] → (∀ d ∈ ds, isDigit d = true) →
    parseImm (ch '0' :: ds) = parseImm ds ∧ parseImm (ch '-' :: ch '0' :: ds) = parseImm (ch '-' :: ds)) ∧
  parseImm (text "-0") = some 0

/-- From 40_decode_execute.md R100; 60_exceptions.md R198. In the status Ready: if the line at pc decodes to i, step is
exec of i at that state (each meaning itself sets the pc and register 0); if decoding raises f, step takes f; if
there is no line at pc, step takes EndOfProgram. -/
def Obligations.StepRunsTheDecodedInstruction : Prop :=
  ∀ s, s.status = .ready →
    (∀ line i, s.lines[s.pc.toNat]? = some line → decode line = .ok i → step s = exec i s) ∧
    (∀ line f, s.lines[s.pc.toNat]? = some line → decode line = .raise f → StepFaults s f) ∧
    (s.lines[s.pc.toNat]? = none → StepFaults s .endOfProgram)

/-- From 41_move.md R120, R121 (pseudocode); 30_encoding.md R77; 92_eei_decisions.md D9. exec of MV rd, rs and of LI rd,
imm answers, in every state and for every operand, a next state in which rd holds the old value of rs, the integer
modulo 2^32 (0 if rd is register 0), register 0 is 0, the pc is one line on, and everything else is as it was. -/
def Obligations.MoveAndLoadImmediateComplete : Prop :=
  (∀ s rd rs, ∃ t, exec (.mv rd rs) s = .next t ∧ WritesRegister s t rd (s.readReg rs) (s.pc + 1)) ∧
  ∀ s rd imm, ∃ t, exec (.li rd imm) s = .next t ∧ WritesRegister s t rd (BitVec.ofInt 32 imm) (s.pc + 1)

/-- Formalises R110, R112. In every state and for every operand exec of ADD, SUB, MUL, ADDI, SUBI answers a next state
in which rd holds the exact integer result taken modulo 2^32, everything else being as it was and the pc one line
on; JALR with distinct registers links pc + 1 modulo 2^32 and goes to base + imm modulo 2^32; JAL links pc + 1
modulo 2^32; the effective address is base + offset modulo 2^32. Nothing is raised on overflow. -/
def Obligations.ArithmeticWrapsModuloTwoToThe32 : Prop :=
  (∀ s rd rs1 rs2, ∃ t, exec (.add rd rs1 rs2) s = .next t ∧
    WritesRegister s t rd (BitVec.ofNat 32 ((s.readReg rs1).toNat + (s.readReg rs2).toNat)) (s.pc + 1)) ∧
  (∀ s rd rs1 rs2, ∃ t, exec (.sub rd rs1 rs2) s = .next t ∧
    WritesRegister s t rd (BitVec.ofInt 32 (((s.readReg rs1).toNat : Int) - (s.readReg rs2).toNat)) (s.pc + 1)) ∧
  (∀ s rd rs1 rs2, ∃ t, exec (.mul rd rs1 rs2) s = .next t ∧
    WritesRegister s t rd (BitVec.ofNat 32 ((s.readReg rs1).toNat * (s.readReg rs2).toNat)) (s.pc + 1)) ∧
  (∀ s rd rs1 imm, ∃ t, exec (.addi rd rs1 imm) s = .next t ∧
    WritesRegister s t rd (BitVec.ofInt 32 ((s.readReg rs1).toNat + imm)) (s.pc + 1)) ∧
  (∀ s rd rs1 imm, ∃ t, exec (.subi rd rs1 imm) s = .next t ∧
    WritesRegister s t rd (BitVec.ofInt 32 ((s.readReg rs1).toNat - imm)) (s.pc + 1)) ∧
  (∀ s rd rs1 imm, rd ≠ rs1 → ∃ t, exec (.jalr rd rs1 imm) s = .next t ∧
    WritesRegister s t rd (BitVec.ofNat 32 (s.pc.toNat + 1)) (BitVec.ofInt 32 ((s.readReg rs1).toNat + imm))) ∧
  (∀ s rd label p, labelLookup s.labels label = some p → ∃ t, exec (.jal rd label) s = .next t ∧
    WritesRegister s t rd (BitVec.ofNat 32 (s.pc.toNat + 1)) p) ∧
  ∀ s offs ra, effectiveAddress s offs ra = BitVec.ofInt 32 ((s.readReg ra).toNat + offs)

/-- From 42_reg_reg.md R133 to R135 (pseudocode); 43_reg_imm.md R142 to R144 (pseudocode); 30_encoding.md R77. In every
state and for every operand exec of AND, OR, XOR, ANDI, ORI, XORI answers a next state in which bit i of rd, i in 0
to 31, is the and, or, exclusive or of bit i of rs1 and bit i of rs2 or of the 32-bit two's complement of the
immediate (decision D9, log 6), everything else being as it was and the pc one line on. -/
def Obligations.LogicalOperatorsWorkBitByBit : Prop :=
  ∀ (s : State) (rd rs1 : RegIx),
    (∀ rs2, ∃ t v, exec (.and rd rs1 rs2) s = .next t ∧ WritesRegister s t rd v (s.pc + 1) ∧
      ∀ i, i < 32 → v.getLsbD i = ((s.readReg rs1).getLsbD i && (s.readReg rs2).getLsbD i)) ∧
    (∀ rs2, ∃ t v, exec (.or rd rs1 rs2) s = .next t ∧ WritesRegister s t rd v (s.pc + 1) ∧
      ∀ i, i < 32 → v.getLsbD i = ((s.readReg rs1).getLsbD i || (s.readReg rs2).getLsbD i)) ∧
    (∀ rs2, ∃ t v, exec (.xor rd rs1 rs2) s = .next t ∧ WritesRegister s t rd v (s.pc + 1) ∧
      ∀ i, i < 32 → v.getLsbD i = ((s.readReg rs1).getLsbD i ^^ (s.readReg rs2).getLsbD i)) ∧
    (∀ imm, ∃ t v, exec (.andi rd rs1 imm) s = .next t ∧ WritesRegister s t rd v (s.pc + 1) ∧
      ∀ i, i < 32 → v.getLsbD i = ((s.readReg rs1).getLsbD i && imm.testBit i)) ∧
    (∀ imm, ∃ t v, exec (.ori rd rs1 imm) s = .next t ∧ WritesRegister s t rd v (s.pc + 1) ∧
      ∀ i, i < 32 → v.getLsbD i = ((s.readReg rs1).getLsbD i || imm.testBit i)) ∧
    ∀ imm, ∃ t v, exec (.xori rd rs1 imm) s = .next t ∧ WritesRegister s t rd v (s.pc + 1) ∧
      ∀ i, i < 32 → v.getLsbD i = ((s.readReg rs1).getLsbD i ^^ imm.testBit i)

/-- From 40_decode_execute.md R113; 42_reg_reg.md R136, R137 (pseudocode); 43_reg_imm.md R145, R146 (pseudocode);
92_eei_decisions.md D10. In every state and for every operand exec of the four shifts answers a next state in which
rd holds (v * 2^k) mod 2^32 or v div 2^k, where v is rs1 and k is the amount (rs2, or the immediate modulo 2^32)
modulo 32, everything else being as it was and the pc one line on. For amounts 0 to 31 this is the document's; for
larger ones it is the spec's own decision D10, mask5 (log 7). -/
def Obligations.ShiftsAreLogicalByTheAmountModulo32 : Prop :=
  ∀ (s : State) (rd rs1 : RegIx),
    (∀ rs2, ∃ t, exec (.sll rd rs1 rs2) s = .next t ∧
      WritesRegister s t rd (BitVec.ofNat 32 ((s.readReg rs1).toNat * 2 ^ ((s.readReg rs2).toNat % 32))) (s.pc + 1)) ∧
    (∀ rs2, ∃ t, exec (.slr rd rs1 rs2) s = .next t ∧
      WritesRegister s t rd (BitVec.ofNat 32 ((s.readReg rs1).toNat / 2 ^ ((s.readReg rs2).toNat % 32))) (s.pc + 1)) ∧
    (∀ imm : Int, ∃ t, exec (.slli rd rs1 imm) s = .next t ∧
      WritesRegister s t rd (BitVec.ofNat 32 ((s.readReg rs1).toNat * 2 ^ (imm % 32).toNat)) (s.pc + 1)) ∧
    ∀ imm : Int, ∃ t, exec (.slri rd rs1 imm) s = .next t ∧
      WritesRegister s t rd (BitVec.ofNat 32 ((s.readReg rs1).toNat / 2 ^ (imm % 32).toNat)) (s.pc + 1)

/-- From 44_control.md R150 (pseudocode and case d); 92_eei_decisions.md D11, D12. In every state and for every operand
exec of JALR answers a next state in which rd holds pc + 1 (0 if rd is register 0), everything but the pc is as it
was, and the pc is the old rs1 plus the immediate if rd and rs1 differ, and the old rs1 or the link plus the
immediate if they are the same register (JALR_ALIAS is open, log 8; the two readings differ for register 0 too). -/
def Obligations.JalrLinksAndJumps : Prop :=
  ∀ s rd rs1 imm, ∃ t p, exec (.jalr rd rs1 imm) s = .next t ∧ WritesRegister s t rd (s.pc + 1) p ∧
    (rd ≠ rs1 → p = s.readReg rs1 + BitVec.ofInt 32 imm) ∧
    (rd = rs1 → p = s.readReg rs1 + BitVec.ofInt 32 imm ∨ p = s.pc + 1 + BitVec.ofInt 32 imm)

/-- From 44_control.md R151 (pseudocode); 60_exceptions.md R185. In every state: if the label table has an entry for the
name, exec of JAL answers a next state in which rd holds pc + 1 (0 if rd is register 0), the pc is the entry, and
everything else is as it was; if it has none, exec takes the fault UnresolvedLabel with the name and changes nothing
else, not even rd. -/
def Obligations.JalLinksAndJumpsToItsLabel : Prop :=
  ∀ s rd label,
    (∀ p, labelLookup s.labels label = some p →
      ∃ t, exec (.jal rd label) s = .next t ∧ WritesRegister s t rd (s.pc + 1) p) ∧
    (labelLookup s.labels label = none →
      ∃ t, exec (.jal rd label) s = .next t ∧ TakesFault s t (.unresolvedLabel label))

/-- From 45_load_store.md R160, R162 (pseudocode); 92_eei_decisions.md D15. In every state, if the effective address is
a multiple of 4 below 512, exec of LW answers a next state in which rd holds the word whose byte k is the byte at
address + k (little-endian, decision D15, log 12), register 0 is 0, the pc is one line on and everything else is as
it was; rd may be the base. -/
def Obligations.LoadWordReadsTheAddressedWord : Prop :=
  ∀ s rd offs ra, LegalAddress (effectiveAddress s offs ra) →
    ∃ t w, exec (.lw rd offs ra) s = .next t ∧ WritesRegister s t rd w (s.pc + 1) ∧
      memRead s.mem (effectiveAddress s offs ra) = .ok w ∧
      ∀ k, k < 4 → byteOfWord w k = s.mem.byteAt ((effectiveAddress s offs ra).toNat + k)

/-- From 45_load_store.md R161, R162 (pseudocode); 92_eei_decisions.md D15. In every state with canonical memory, if the
effective address is a multiple of 4 below 512, exec of SW answers a next state in which the four bytes from that
address on hold the value register's word (byte order: D15, log 12), every other byte is as it was, no register has
changed but register 0 which is 0, the pc is one line on and the rest is as it was. -/
def Obligations.StoreWordWritesOnlyTheAddressedWord : Prop :=
  ∀ s rs offs ra, Memory.wf s.mem → LegalAddress (effectiveAddress s offs ra) →
    ∃ t, exec (.sw rs offs ra) s = .next t ∧ WritesNoRegister s t (s.pc + 1) ∧
      StoresWord s t (effectiveAddress s offs ra) (s.readReg rs)

/-- From 45_load_store.md R160, R161; 20_memory.md R43 to R45; 92_eei_decisions.md D14. In every state: if the effective
address is no multiple of 4, exec of LW and of SW takes UnalignedAccess with the address, in bounds or not (that
alignment is first is decision D14, log 11); if it is a multiple of 4 from 512 on, OutOfBounds; rd keeps its value
and memory is unchanged. -/
def Obligations.IllegalAccessesFaultAndChangeNothing : Prop :=
  ∀ s r offs ra,
    ((effectiveAddress s offs ra).toNat % 4 ≠ 0 →
      (∃ t, exec (.lw r offs ra) s = .next t ∧ TakesFault s t (.unalignedAccess (effectiveAddress s offs ra))) ∧
      ∃ t, exec (.sw r offs ra) s = .next t ∧ TakesFault s t (.unalignedAccess (effectiveAddress s offs ra))) ∧
    ((effectiveAddress s offs ra).toNat % 4 = 0 → 512 ≤ (effectiveAddress s offs ra).toNat →
      (∃ t, exec (.lw r offs ra) s = .next t ∧ TakesFault s t (.outOfBounds (effectiveAddress s offs ra))) ∧
      ∃ t, exec (.sw r offs ra) s = .next t ∧ TakesFault s t (.outOfBounds (effectiveAddress s offs ra)))

/-- From 20_memory.md R42, R50; 95_test_vectors.md S4. In every state with canonical memory and a legal effective
address: after SW rs, offs(ra), an LW whose effective address in the new state is the same loads the value rs had
before the store (0 into register 0). -/
def Obligations.StoreThenLoadReturnsTheStoredValue : Prop :=
  ∀ s rs offs ra rd offs' ra', Memory.wf s.mem → LegalAddress (effectiveAddress s offs ra) →
    ∃ t, exec (.sw rs offs ra) s = .next t ∧
      (effectiveAddress t offs' ra' = effectiveAddress s offs ra →
        ∃ u, exec (.lw rd offs' ra') t = .next u ∧ u.readReg rd = if rd = 0 then 0 else s.readReg rs)

/-- Formalises R170, R171. exec of a label line and of the empty line, and a step at any line that matches LABEL or is
empty, answer a next state with the pc one line on, register 0 at 0, and every other register, every byte of memory,
the label table and all else as they were; such a line counts as one executed line of a batch, and the empty line
defines no label. -/
def Obligations.NoOpLinesOnlyAdvance : Prop :=
  (∀ s name, ∃ t, exec (.labelLine name) s = .next t ∧ WritesNoRegister s t (s.pc + 1) ∧
    ∀ a, t.mem.byteAt a = s.mem.byteAt a) ∧
  matchLabel [] = none ∧
  (∀ s, ∃ t, exec .emptyLine s = .next t ∧ WritesNoRegister s t (s.pc + 1) ∧ ∀ a, t.mem.byteAt a = s.mem.byteAt a) ∧
  ∀ s line, AtLine s line → (line = [] ∨ ∃ name, matchLabel line = some name) →
    ∃ t, step s = .next t ∧ WritesNoRegister s t (s.pc + 1) ∧ (∀ a, t.mem.byteAt a = s.mem.byteAt a) ∧
      ∀ n, runAmount (n + 1) s = runBatch false n t

/-- Formalises R130, R131, R132, R133, R134, R135. For each of the six operators and every Ready state at a line with
that operator: a line that is not RRR raises ShapeMismatch with OP RD, RS1, RS2; a line with a field that is no
register name raises UnknownRegister of such a field; otherwise rd holds the sum, difference, low product word,
bitwise and, or, exclusive or of the old values, the pc is one line on and nothing else changes. These are the only
faults. -/
def Obligations.RegisterRegisterLinesFollowTheirRules : Prop :=
  RrrLineRule (text "ADD") (fun a b v => v = BitVec.ofNat 32 (a.toNat + b.toNat)) ∧
  RrrLineRule (text "SUB") (fun a b v => v = BitVec.ofInt 32 ((a.toNat : Int) - b.toNat)) ∧
  RrrLineRule (text "MUL") (fun a b v => v = BitVec.ofNat 32 (a.toNat * b.toNat)) ∧
  RrrLineRule (text "AND") (fun a b v => ∀ i, i < 32 → v.getLsbD i = (a.getLsbD i && b.getLsbD i)) ∧
  RrrLineRule (text "OR") (fun a b v => ∀ i, i < 32 → v.getLsbD i = (a.getLsbD i || b.getLsbD i)) ∧
  RrrLineRule (text "XOR") (fun a b v => ∀ i, i < 32 → v.getLsbD i = (a.getLsbD i ^^ b.getLsbD i))

/-- Formalises R140, R141, R142, R143, R144. For each of the five operators and every Ready state at a line with that
operator: a line that is not RRI raises ShapeMismatch with OP RD, RS1, IMM; a line with a field that does not
resolve raises UnknownRegister of a register field or InvalidImmediate of the immediate field; otherwise rd holds
the sum, difference, bitwise and, or, exclusive or of the old rs1 and the integer modulo 2^32, the pc is one line on
and nothing else changes. -/
def Obligations.RegisterImmediateLinesFollowTheirRules : Prop :=
  RriLineRule (text "ADDI") (fun a i v => v = BitVec.ofInt 32 (a.toNat + i)) ∧
  RriLineRule (text "SUBI") (fun a i v => v = BitVec.ofInt 32 (a.toNat - i)) ∧
  RriLineRule (text "ANDI") (fun a i v => ∀ k, k < 32 → v.getLsbD k = (a.getLsbD k && i.testBit k)) ∧
  RriLineRule (text "ORI") (fun a i v => ∀ k, k < 32 → v.getLsbD k = (a.getLsbD k || i.testBit k)) ∧
  RriLineRule (text "XORI") (fun a i v => ∀ k, k < 32 → v.getLsbD k = (a.getLsbD k ^^ i.testBit k))

/-- From 42_reg_reg.md R136, R137; 43_reg_imm.md R145, R146; 40_decode_execute.md R113; 92_eei_decisions.md D10. As for
the other register-register and register-immediate lines, with the value shifted left or right logically by the
amount modulo 32; for amounts of 32 or more this is the spec's own decision D10. -/
def Obligations.ShiftLinesFollowTheirRules : Prop :=
  RrrLineRule (text "SLL") (fun v a r => r = BitVec.ofNat 32 (v.toNat * 2 ^ (a.toNat % 32))) ∧
  RrrLineRule (text "SLR") (fun v a r => r = BitVec.ofNat 32 (v.toNat / 2 ^ (a.toNat % 32))) ∧
  RriLineRule (text "SLLI") (fun v i r => r = BitVec.ofNat 32 (v.toNat * 2 ^ (i % 32).toNat)) ∧
  RriLineRule (text "SLRI") (fun v i r => r = BitVec.ofNat 32 (v.toNat / 2 ^ (i % 32).toNat))

/-- From 41_move.md R120, R121; 30_encoding.md R75, R76; 92_eei_decisions.md D8, D13. For every Ready state at a line
with the operator: a line that is not 2OP raises ShapeMismatch with OP RD, IMM; else UnknownRegister(f1); else
UnknownRegister(f2) for MV, InvalidImmediate(f2) for LI; else rd holds the old value of rs, the integer modulo 2^32.
The order of the field faults is decision D13 (log 10), the literal range D8 (log 5). -/
def Obligations.MoveLinesFollowTheirRules : Prop :=
  ∀ s line, AtLine s line →
    (operatorOf line = text "MV" →
      (matchTwoOp line = none → StepFaults s (.shapeMismatch (text "OP RD, IMM"))) ∧
      ∀ f, matchTwoOp line = some f →
        (regResolve f.f1 = none → StepFaults s (.unknownRegister f.f1)) ∧
        ∀ rd, regResolve f.f1 = some rd →
          (regResolve f.f2 = none → StepFaults s (.unknownRegister f.f2)) ∧
          ∀ rs, regResolve f.f2 = some rs → ∃ t, step s = .next t ∧ WritesRegister s t rd (s.readReg rs) (s.pc + 1)) ∧
    (operatorOf line = text "LI" →
      (matchTwoOp line = none → StepFaults s (.shapeMismatch (text "OP RD, IMM"))) ∧
      ∀ f, matchTwoOp line = some f →
        (regResolve f.f1 = none → StepFaults s (.unknownRegister f.f1)) ∧
        ∀ rd, regResolve f.f1 = some rd →
          (parseImm f.f2 = none → StepFaults s (.invalidImmediate f.f2)) ∧
          ∀ i, parseImm f.f2 = some i → ∃ t, step s = .next t ∧ WritesRegister s t rd (BitVec.ofInt 32 i) (s.pc + 1))

/-- From 44_control.md R150, R151; 92_eei_decisions.md D11, D13. For every Ready state at a line with the operator, in
the order of the rules (D13, log 10): ShapeMismatch with the form text, UnknownRegister, InvalidImmediate for JALR,
UnresolvedLabel for JAL; else rd holds pc + 1 and the pc is the label's line for JAL, the old rs1 plus the immediate
for JALR with distinct registers, and that or the link plus the immediate when they are the same (log 8). -/
def Obligations.JumpLinesFollowTheirRules : Prop :=
  ∀ s line, AtLine s line →
    (operatorOf line = text "JALR" →
      (matchRri line = none → StepFaults s (.shapeMismatch (text "OP RD, RS1, IMM"))) ∧
      ∀ f, matchRri line = some f →
        (regResolve f.f1 = none → StepFaults s (.unknownRegister f.f1)) ∧
        ∀ rd, regResolve f.f1 = some rd →
          (regResolve f.f2 = none → StepFaults s (.unknownRegister f.f2)) ∧
          ∀ rs1, regResolve f.f2 = some rs1 →
            (parseImm f.f3 = none → StepFaults s (.invalidImmediate f.f3)) ∧
            ∀ i, parseImm f.f3 = some i → ∃ t p, step s = .next t ∧ WritesRegister s t rd (s.pc + 1) p ∧
              (rd ≠ rs1 → p = s.readReg rs1 + BitVec.ofInt 32 i) ∧
              (rd = rs1 → p = s.readReg rs1 + BitVec.ofInt 32 i ∨ p = s.pc + 1 + BitVec.ofInt 32 i)) ∧
    (operatorOf line = text "JAL" →
      (matchRl line = none → StepFaults s (.shapeMismatch (text "OP RD, LABEL"))) ∧
      ∀ f, matchRl line = some f →
        (regResolve f.f1 = none → StepFaults s (.unknownRegister f.f1)) ∧
        ∀ rd, regResolve f.f1 = some rd →
          (labelLookup s.labels f.f2 = none → StepFaults s (.unresolvedLabel f.f2)) ∧
          ∀ p, labelLookup s.labels f.f2 = some p → ∃ t, step s = .next t ∧ WritesRegister s t rd (s.pc + 1) p)

/-- From 45_load_store.md R160 to R162; 92_eei_decisions.md D13, D14, D15. For every Ready state with canonical memory
at a line with the operator, in the order of the rules (D13, D14, log 10 and 11): ShapeMismatch with OP RD,
OFFS(RA), UnknownRegister(f1), InvalidImmediate(f2), UnknownRegister(f3), UnalignedAccess(EA), OutOfBounds(EA); else
LW loads the addressed word into rd and SW stores the register's word there, with EA the old base plus the offset
modulo 2^32. -/
def Obligations.LoadAndStoreLinesFollowTheirRules : Prop :=
  ∀ s line, AtLine s line → Memory.wf s.mem → operatorOf line = text "LW" ∨ operatorOf line = text "SW" →
    (matchRob line = none → StepFaults s (.shapeMismatch (text "OP RD, OFFS(RA)"))) ∧
    ∀ f, matchRob line = some f →
      (regResolve f.f1 = none → StepFaults s (.unknownRegister f.f1)) ∧
      ∀ r, regResolve f.f1 = some r →
        (parseImm f.f2 = none → StepFaults s (.invalidImmediate f.f2)) ∧
        ∀ offs, parseImm f.f2 = some offs →
          (regResolve f.f3 = none → StepFaults s (.unknownRegister f.f3)) ∧
          ∀ ra ea, regResolve f.f3 = some ra → ea = s.readReg ra + BitVec.ofInt 32 offs →
            (ea.toNat % 4 ≠ 0 → StepFaults s (.unalignedAccess ea)) ∧
            (ea.toNat % 4 = 0 → 512 ≤ ea.toNat → StepFaults s (.outOfBounds ea)) ∧
            (LegalAddress ea →
              (operatorOf line = text "LW" → ∃ t w, step s = .next t ∧ WritesRegister s t r w (s.pc + 1) ∧
                ∀ k, k < 4 → byteOfWord w k = s.mem.byteAt (ea.toNat + k)) ∧
              (operatorOf line = text "SW" → ∃ t, step s = .next t ∧ WritesNoRegister s t (s.pc + 1) ∧
                StoresWord s t ea (s.readReg r)))

/-- Formalises R172. For every Ready state at a non-empty line that matches no label pattern and whose operator token is
no operator's spelling, the step takes UnknownOperator with the token and changes nothing else; the pc stays on the
line. -/
def Obligations.UnknownOperatorLinesFault : Prop :=
  ∀ s line, AtLine s line → line ≠ [] → matchLabel line = none → (∀ m, operatorOf line ≠ spelling m) →
    StepFaults s (.unknownOperator (operatorOf line))

/-- Formalises R200. For every Ready state s there is a state t with step s = next t and runAmount 1 s = next (flag, t),
the flag being success exactly if t is Ready; if pc is at or past the line count t is s with EndOfProgram taken;
otherwise step s is the execution of the line at pc, whether or not pc is a breakpoint. -/
def Obligations.StepIsABatchOfOne : Prop :=
  ∀ s, s.status = .ready →
    (∃ t b, step s = .next t ∧ runAmount 1 s = .next (b, t) ∧ (b = true ↔ t.status = .ready)) ∧
    (s.lines.length ≤ s.pc.toNat → StepFaults s .endOfProgram) ∧
    (∀ line, s.lines[s.pc.toNat]? = some line → step s = execute line s) ∧
    ∀ bs : List Word, ∀ t, step s = .next t → step { s with breakpoints := bs } = .next { t with breakpoints := bs }

/-- Formalises R188. For every Ready state with pc at or past the line count, a step takes EndOfProgram (no register,
memory byte or pc changes, the record has no line text), and a batch of one or more fails with that state; an
attempt at pc below the line count never takes EndOfProgram. -/
def Obligations.EndOfProgramIsRaisedByTheFirstAttempt : Prop :=
  (∀ s, s.status = .ready → s.lines.length ≤ s.pc.toNat →
    ∃ t, step s = .next t ∧ TakesFault s t .endOfProgram ∧ s.lines[s.pc.toNat]? = none ∧
      ∀ n, runAmount (n + 1) s = .next (false, t)) ∧
  ∀ s t r, s.pc.toNat < s.lines.length → step s = .next t → t.status = .halted r → r.cause ≠ .endOfProgram

/-- Formalises R201. If the line at pc completes and goes on at a breakpoint line, a batch of two or more stops there
with success in that very state, the line not executed; the same holds later in a batch; a batch that starts at a
breakpoint executes its line; no batch changes the breakpoint set. -/
def Obligations.BreakpointsStopABatchBeforeTheirLine : Prop :=
  (∀ s u n, step s = .next u → u.status = .ready → u.pc ∈ u.breakpoints → u.pc.toNat < u.lines.length →
    runAmount (n + 2) s = .next (true, u)) ∧
  (∀ s n, s.pc ∈ s.breakpoints → s.pc.toNat < s.lines.length → runBatch false (n + 1) s = .next (true, s)) ∧
  (∀ s n line, AtLine s line → ∃ t, step s = .next t ∧ step s = execute line s ∧
    (t.status = .ready → runAmount (n + 1) s = runBatch false n t) ∧
    (t.status ≠ .ready → runAmount (n + 1) s = .next (false, t))) ∧
  ∀ n s b t, runAmount n s = .next (b, t) → t.breakpoints = s.breakpoints

/-- From 60_exceptions.md R197, R199, R200; 92_eei_decisions.md D19, D20. For every Ready state: the state a batch
runAmount(n) ends in is reached by some k <= n repeated steps; and if n repeated steps reach a Ready state, and no
state after 1 to n - 1 of them is at a breakpoint, then runAmount(n) answers success with exactly that state. A
later attempt of a batch at a line that is no breakpoint, whatever the set holds, executes the line and goes on with
one attempt less, or ends with failure if the line faults. The count is any natural number (log 34). -/
def Obligations.BatchesAreRepeatedSteps : Prop :=
  ∀ n s, s.status = .ready →
    (∀ b t, runAmount n s = .next (b, t) → ∃ k, k ≤ n ∧ runSteps k s = .next t) ∧
    (∀ t : State, (∀ k u, 0 < k → k < n → runSteps k s = .next u → u.pc ∉ s.breakpoints) →
      runSteps n s = .next t → t.status = .ready → runAmount n s = .next (true, t)) ∧
    ∀ line t, s.lines[s.pc.toNat]? = some line → s.pc ∉ s.breakpoints → step s = .next t →
      (t.status = .ready → runBatch false (n + 1) s = runBatch false n t) ∧
      (t.status ≠ .ready → runBatch false (n + 1) s = .next (false, t))

/-- From 60_exceptions.md R198, R199, R202, R206; 92_eei_decisions.md D19. For every Ready state and n, runAmount(n)
answers a flag and a state, the flag being success exactly if that state is Ready; runAmount(0) answers success and
the same state, and so does what is left of a batch, breakpoint or not, at a later attempt with pc at or past the
line count (decision D19, log 16). The count is any natural number (log 34). -/
def Obligations.BatchesAlwaysAnswerAndTheFlagTellsTheStatus : Prop :=
  (∀ s, s.status = .ready →
    (∀ n, ∃ b t, runAmount n s = .next (b, t) ∧ (b = true ↔ t.status = .ready)) ∧ runAmount 0 s = .next (true, s)) ∧
  ∀ s n, s.lines.length ≤ s.pc.toNat → runBatch false n s = .next (true, s)

/-- Formalises R26. If step s answers next t: when t is Halted the pc is unchanged; when t is Ready and the line at pc
is neither a JALR nor a JAL, the pc of t is that of s plus 1, also as unbounded numbers, provided the line count is
below 2^32 (R31); when t is Ready after a JAL, its pc is the label's entry; after a JALR it is the old rs1 plus the
immediate, or, when rd is rs1, that or the link plus the immediate (log 8). -/
def Obligations.TheDefaultAdvanceIsOneLine : Prop :=
  ∀ s t, s.lines.length < 2 ^ 32 → step s = .next t →
    (t.status ≠ .ready → t.pc = s.pc) ∧
    (t.status = .ready →
      (∀ line rd rs1 imm, s.lines[s.pc.toNat]? = some line → decode line ≠ .ok (.jalr rd rs1 imm)) →
      (∀ line rd label, s.lines[s.pc.toNat]? = some line → decode line ≠ .ok (.jal rd label)) →
      t.pc = s.pc + 1 ∧ t.pc.toNat = s.pc.toNat + 1) ∧
    (t.status = .ready → ∀ line, s.lines[s.pc.toNat]? = some line →
      (∀ rd label, decode line = .ok (.jal rd label) → labelLookup s.labels label = some t.pc) ∧
      ∀ rd rs1 imm, decode line = .ok (.jalr rd rs1 imm) →
        t.pc = s.readReg rs1 + BitVec.ofInt 32 imm ∨ (rd = rs1 ∧ t.pc = s.pc + 1 + BitVec.ofInt 32 imm))

/-- From 40_decode_execute.md R106, R107. For every program of fewer than 2^32 lines in which no label name is defined
twice: the lookup of a name gives k exactly if line k matches LABEL with that name, and gives nothing exactly if no
line defines it. -/
def Obligations.ScanFindsEveryLabelLine : Prop :=
  ∀ lines : List Text, lines.length < 2 ^ 32 → duplicatedLabel lines = none →
    (∀ name k, k < lines.length →
      (labelLookup (scan lines) name = some (BitVec.ofNat 32 k) ↔ lines[k]?.bind matchLabel = some name)) ∧
    ∀ name, labelLookup (scan lines) name = none ↔ ∀ line ∈ lines, matchLabel line ≠ some name

/-- From 10_state.md R32; 40_decode_execute.md R108; 90_conflicts.md C2. For every program: the names of its label table
are distinct; the lookup of a name gives an index only of a line that matches LABEL with the name (which one, for a
duplicated name, is free: log 18), and gives one whenever some line defines it. -/
def Obligations.TableEntriesAreDefiningLinesWithUniqueNames : Prop :=
  ∀ lines : List Text,
    ((scan lines).map Prod.fst).Nodup ∧
    (∀ name v, labelLookup (scan lines) name = some v →
      ∃ k, k < lines.length ∧ v = BitVec.ofNat 32 k ∧ lines[k]?.bind matchLabel = some name) ∧
    ∀ name, (∃ line ∈ lines, matchLabel line = some name) → labelLookup (scan lines) name ≠ none

/-- From 60_exceptions.md R203; 30_encoding.md R61; 10_state.md R31; 40_decode_execute.md R106, R108;
92_eei_decisions.md D2, D17, D21, D25. A load of lines is refused exactly if they are more than MAX_LINES, or a
trimmed line is longer than MAX_LINE_CHARS, or a label name is defined twice (D21, D25, log 18 and 22); otherwise it
answers the state with the trimmed lines and their scan, everything else unchanged (D17, log 14), and every stored
line is trimmed. Trimming takes whitespace off the two ends of a line and nothing else (whitespace as in R61,
decision D2, log 1). -/
def Obligations.ProgramLoadSetsLinesAndTableOnly : Prop :=
  (∀ line : Text, ∃ a b, (∀ c ∈ a, isSpace c = true) ∧ (∀ c ∈ b, isSpace c = true) ∧ line = a ++ trim line ++ b) ∧
  ∀ (source : List Text) (s : State),
    ((Config.maxLines.val < source.length ∨ (∃ line ∈ source, Config.maxLineChars < (trim line).length) ∨
        duplicatedLabel (source.map trim) ≠ none) →
      ∃ r, loadProgram source s = .refused r) ∧
    (source.length ≤ Config.maxLines.val → (∀ line ∈ source, (trim line).length ≤ Config.maxLineChars) →
      duplicatedLabel (source.map trim) = none →
      loadProgram source s = .next { s with lines := source.map trim, labels := scan (source.map trim) }) ∧
    ∀ line ∈ source.map trim, isTrimmed line = true

/-- Formalises R204. For every state the register readback has 32 words, the one at index i being x[i], and the memory
readback has 128 words, the one at 16*b + w being M[b][w]; neither depends on the pc, the tags, the label table or
the breakpoint set. -/
def Obligations.ReadbackListsRegistersAndMemoryInOrder : Prop :=
  ∀ s : State,
    (readRegisters s).length = 32 ∧ (∀ i : RegIx, (readRegisters s)[i.val]? = some (s.readReg i)) ∧
    (readMemory s).length = 128 ∧
    (∀ b w, b < 8 → w < 16 → (readMemory s)[16 * b + w]? = some (s.mem.wordAt b w)) ∧
    ∀ t : State, t.regs = s.regs → t.mem = s.mem → readRegisters t = readRegisters s ∧ readMemory t = readMemory s

/-- Formalises R205. For every state and 32-bit index k, also one past the program: after add exactly the old indices
and k are in the set, after remove exactly the old ones but k, after clear none; adding one present and removing one
absent leaves a set in rising order as it was; nothing else changes; program load does not change the set; and with
an index at or past the line count added, a batch ends as it does without it. -/
def Obligations.BreakpointOperationsAreSetOperations : Prop :=
  ∀ (s : State) (k : Word),
    (∀ j, j ∈ (addBreakpoint k s).breakpoints ↔ j = k ∨ j ∈ s.breakpoints) ∧
    (∀ j, j ∈ (removeBreakpoint k s).breakpoints ↔ j ≠ k ∧ j ∈ s.breakpoints) ∧
    (clearBreakpoints s).breakpoints = [] ∧
    (s.breakpoints.Pairwise (fun a b => a.toNat < b.toNat) → k ∈ s.breakpoints → addBreakpoint k s = s) ∧
    (k ∉ s.breakpoints → removeBreakpoint k s = s) ∧
    (addBreakpoint k s = { s with breakpoints := (addBreakpoint k s).breakpoints }) ∧
    (removeBreakpoint k s = { s with breakpoints := (removeBreakpoint k s).breakpoints }) ∧
    (clearBreakpoints s = { s with breakpoints := [] }) ∧
    (∀ source t, loadProgram source s = .next t → t.breakpoints = s.breakpoints) ∧
    ∀ n b t, s.lines.length ≤ k.toNat → runAmount n s = .next (b, t) →
      runAmount n (addBreakpoint k s) = .next (b, addBreakpoint k t)

/-- From 30_encoding.md R62, R65 to R69, R87; 92_eei_decisions.md D3, D4. For every line: one that matches 2OP matches
none of RRR, RRI, ROB; one that matches 2OP with a second operand that begins with a minus does not match RL, and
one that matches RL matches none of RRR, RRI, ROB; one that matches RRR or RRI does not match ROB; one that matches
RRI with a third operand that begins with a minus does not match RRR. It follows from the forms, which are decisions
D3 and D4 (log 2). LABEL is in PatternsOverlapAsRuled. -/
def Obligations.NoOtherTwoPatternsOverlap : Prop :=
  ∀ line,
    (matchTwoOp line ≠ none → matchRrr line = none ∧ matchRri line = none ∧ matchRob line = none) ∧
    (∀ f, matchTwoOp line = some f → f.f2.head? = some (ch '-') → matchRl line = none) ∧
    (matchRl line ≠ none → matchRrr line = none ∧ matchRri line = none ∧ matchRob line = none) ∧
    (matchRrr line ≠ none → matchRob line = none) ∧ (matchRri line ≠ none → matchRob line = none) ∧
    ∀ f, matchRri line = some f → f.f3.head? = some (ch '-') → matchRrr line = none
end

