-- ==== Sys2Proof/Laws/Patterns.lean ====
section
/-! SUPPORT. The scanners of `Decode.lean` against the forms of R62 to R69: each scanner answers exactly the splits its form
allows, so that a line is taken apart in one way (R63). -/

namespace Sys2Proof.Machine

/-! ### Character classes -/

theorem not_wordChar_of_space {b : Byte} (h : isSpace b = true) : isWordChar b = false := by
  simp only [isSpace, isWordChar, isDigit, Bool.or_eq_true, Bool.and_eq_true, beq_iff_eq, decide_eq_true_eq,
    Bool.or_eq_false_iff, Bool.and_eq_false_imp, decide_eq_false_iff_not, beq_eq_false_iff_ne] at *
  omega

theorem not_space_of_wordChar {b : Byte} (h : isWordChar b = true) : isSpace b = false := by
  cases hs : isSpace b with
  | false => rfl
  | true => rw [not_wordChar_of_space hs] at h; cases h

theorem wordChar_of_digit {b : Byte} (h : isDigit b = true) : isWordChar b = true := by
  simp only [isWordChar, h, Bool.true_or]

@[simp] theorem wordChar_minus : isWordChar (ch '-') = false := by decide
@[simp] theorem wordChar_comma : isWordChar (ch ',') = false := by decide
@[simp] theorem wordChar_colon : isWordChar (ch ':') = false := by decide
@[simp] theorem wordChar_open : isWordChar (ch '(') = false := by decide
@[simp] theorem wordChar_close : isWordChar (ch ')') = false := by decide
@[simp] theorem digit_minus : isDigit (ch '-') = false := by decide
@[simp] theorem digit_comma : isDigit (ch ',') = false := by decide
@[simp] theorem digit_open : isDigit (ch '(') = false := by decide
@[simp] theorem space_minus : isSpace (ch '-') = false := by decide
@[simp] theorem space_comma : isSpace (ch ',') = false := by decide
@[simp] theorem space_open : isSpace (ch '(') = false := by decide
@[simp] theorem space_close : isSpace (ch ')') = false := by decide
@[simp] theorem space_colon : isSpace (ch ':') = false := by decide

/-! ### Runs -/

/-- The text does not begin with a character of the class. -/
def StartsNot (p : Byte → Bool) (r : Text) : Prop := ∀ b, r.head? = some b → p b = false

/-- A non-empty run of characters of a class. -/
def IsRun (p : Byte → Bool) (t : Text) : Prop := t ≠ [] ∧ ∀ b ∈ t, p b = true

/-- A run of a class with an optional `-` before it. -/
def IsSigned (p : Byte → Bool) (t : Text) : Prop := IsRun p t ∨ ∃ w, t = ch '-' :: w ∧ IsRun p w

@[simp] theorem startsNot_nil (p : Byte → Bool) : StartsNot p [] := by intro b h; cases h

@[simp] theorem startsNot_cons (p : Byte → Bool) (c : Byte) (r : Text) : StartsNot p (c :: r) ↔ p c = false := by
  simp [StartsNot]

theorem isWord_iff (t : Text) : isWord t = true ↔ IsRun isWordChar t := by
  simp [isWord, IsRun]

theorem isGap_iff (t : Text) : IsGap t ↔ IsRun isSpace t := Iff.rfl

theorem isVal_iff (t : Text) : IsVal t ↔ IsSigned isWordChar t := by
  simp only [IsVal, IsSigned, isWord_iff]

theorem isInt_iff (t : Text) : isInt t = true ↔ IsSigned isDigit t := by
  unfold isInt
  split
  · next => simp [IsSigned, IsRun]
  · next c r =>
    by_cases hc : c = ch '-'
    · subst hc
      simp only [if_true, IsSigned, IsRun, List.cons.injEq, true_and, Bool.and_eq_true, Bool.not_eq_true',
        List.isEmpty_eq_false_iff, List.all_eq_true, ne_eq]
      constructor
      · intro h; exact .inr ⟨r, rfl, h⟩
      · rintro (⟨_, h⟩ | ⟨w, rfl, h⟩)
        · exact absurd (h (ch '-') (by simp)) (by simp)
        · exact h
    · simp only [if_neg hc, IsSigned, IsRun, List.cons.injEq, List.all_eq_true, ne_eq, reduceCtorEq, not_false_eq_true,
        true_and]
      constructor
      · exact .inl
      · rintro (h | ⟨w, ⟨h, _⟩, _⟩)
        · exact h
        · exact absurd h hc

/-- A run that ends where the class ends is what the scanner takes. -/
theorem takeSome_append (p : Byte → Bool) (t r : Text) (ht : IsRun p t) (hr : StartsNot p r) :
    takeSome p (t ++ r) = some (t, r) := by
  have hd : r.takeWhile p = [] ∧ r.dropWhile p = r := by
    cases r with
    | nil => exact ⟨rfl, rfl⟩
    | cons c r =>
      have hc : p c = false := (startsNot_cons p c r).mp hr
      exact ⟨by simp [hc], by simp [hc]⟩
  have h1 : (t ++ r).takeWhile p = t := by
    rw [List.takeWhile_append_of_pos ht.2, hd.1, List.append_nil]
  have h2 : (t ++ r).dropWhile p = r := by
    rw [List.dropWhile_append_of_pos ht.2, hd.2]
  simp only [takeSome, h1, h2, ht.1, if_false]

theorem takeSome_iff (p : Byte → Bool) (l t r : Text) :
    takeSome p l = some (t, r) ↔ l = t ++ r ∧ IsRun p t ∧ StartsNot p r := by
  constructor
  · intro h
    unfold takeSome at h
    split at h
    · cases h
    · next hne =>
      cases h
      refine ⟨(List.takeWhile_append_dropWhile).symm, ⟨hne, fun b hb => List.mem_takeWhile_imp hb⟩, ?_⟩
      intro b hb
      have := List.head?_dropWhile_not p l
      rw [hb] at this
      simpa using this
  · rintro ⟨rfl, ht, hr⟩
    exact takeSome_append p t r ht hr

theorem takeSigned_iff (p : Byte → Bool) (hp : p (ch '-') = false) (l t r : Text) :
    takeSigned p l = some (t, r) ↔ l = t ++ r ∧ IsSigned p t ∧ StartsNot p r := by
  cases l with
  | nil =>
    simp only [takeSigned, reduceCtorEq, false_iff]
    rintro ⟨h, hs, _⟩
    obtain ⟨rfl, rfl⟩ := List.append_eq_nil_iff.mp h.symm
    rcases hs with hs | ⟨w, h, _⟩
    · exact hs.1 rfl
    · cases h
  | cons c l =>
    unfold takeSigned
    by_cases hc : c = ch '-'
    · subst hc
      simp only [if_true, Option.map_eq_some_iff, Prod.mk.injEq, Prod.exists, takeSome_iff]
      constructor
      · rintro ⟨w, r', ⟨rfl, hw, hr⟩, rfl, rfl⟩
        exact ⟨rfl, .inr ⟨w, rfl, hw⟩, hr⟩
      · rintro ⟨h, hs | ⟨w, rfl, hw⟩, hr⟩
        · cases t with
          | nil => exact absurd rfl hs.1
          | cons d t =>
            cases h
            have := hs.2 (ch '-') (by simp)
            rw [hp] at this; cases this
        · cases h
          exact ⟨w, r, ⟨rfl, hw, hr⟩, rfl, rfl⟩
    · simp only [if_neg hc, takeSome_iff]
      constructor
      · rintro ⟨h, ht, hr⟩
        exact ⟨h, .inl ht, hr⟩
      · rintro ⟨h, hs | ⟨w, rfl, hw⟩, hr⟩
        · exact ⟨h, hs, hr⟩
        · cases h
          exact absurd rfl hc

theorem lexWord_iff (l t r : Text) :
    lexWord l = some (t, r) ↔ l = t ++ r ∧ isWord t = true ∧ StartsNot isWordChar r := by
  rw [isWord_iff]; exact takeSome_iff _ _ _ _

theorem lexInt_iff (l t r : Text) :
    lexInt l = some (t, r) ↔ l = t ++ r ∧ isInt t = true ∧ StartsNot isDigit r := by
  rw [isInt_iff]; exact takeSigned_iff _ digit_minus _ _ _

theorem lexVal_iff (l t r : Text) :
    lexVal l = some (t, r) ↔ l = t ++ r ∧ IsVal t ∧ StartsNot isWordChar r := by
  rw [isVal_iff]; exact takeSigned_iff _ wordChar_minus _ _ _

theorem lexGap_iff (l r : Text) : lexGap l = some r ↔ ∃ g, l = g ++ r ∧ IsGap g ∧ StartsNot isSpace r := by
  simp only [lexGap, Option.map_eq_some_iff, Prod.exists, takeSome_iff, isGap_iff]
  constructor
  · rintro ⟨g, r', h, rfl⟩; exact ⟨g, h⟩
  · rintro ⟨g, h⟩; exact ⟨g, r, h, rfl⟩

theorem lexChar_iff (c : Char) (l r : Text) : lexChar c l = some r ↔ l = ch c :: r := by
  cases l with
  | nil => simp [lexChar]
  | cons b l =>
    by_cases h : b = ch c <;> simp [lexChar, h]

theorem lexSep_iff (l r : Text) :
    lexSep l = some r ↔ ∃ pad, l = ch ',' :: (pad ++ r) ∧ IsPad pad ∧ StartsNot isSpace r := by
  simp only [lexSep, Option.map_eq_some_iff, lexChar_iff]
  constructor
  · rintro ⟨q, rfl, rfl⟩
    refine ⟨q.takeWhile isSpace, by rw [List.takeWhile_append_dropWhile], fun b hb => List.mem_takeWhile_imp hb, ?_⟩
    intro b hb
    have := List.head?_dropWhile_not isSpace q
    rw [hb] at this
    simpa using this
  · rintro ⟨pad, rfl, hp, hr⟩
    refine ⟨pad ++ r, rfl, ?_⟩
    rw [List.dropWhile_append_of_pos hp]
    cases r with
    | nil => rfl
    | cons c r => simp [(startsNot_cons _ c r).mp hr]

/-! ### What begins a token cannot continue the one before it -/

theorem IsRun.startsNot {p q : Byte → Bool} {t r : Text} (h : IsRun p t) (hpq : ∀ b, p b = true → q b = false) :
    StartsNot q (t ++ r) := by
  cases t with
  | nil => exact absurd rfl h.1
  | cons c t => exact (startsNot_cons q c _).mpr (hpq c (h.2 c (by simp)))

theorem gap_startsNot {g r : Text} (h : IsGap g) : StartsNot isWordChar (g ++ r) :=
  IsRun.startsNot ((isGap_iff g).mp h) fun _ => not_wordChar_of_space

theorem word_startsNot {w r : Text} (h : isWord w = true) : StartsNot isSpace (w ++ r) :=
  IsRun.startsNot ((isWord_iff w).mp h) fun _ => not_space_of_wordChar

theorem val_startsNot {w r : Text} (h : IsVal w) : StartsNot isSpace (w ++ r) := by
  rcases h with h | ⟨v, rfl, _⟩
  · exact word_startsNot h
  · exact (startsNot_cons _ _ _).mpr space_minus

theorem val_of_int {w : Text} (h : isInt w = true) : IsVal w := by
  rw [isVal_iff]
  rcases (isInt_iff w).mp h with ⟨hn, ha⟩ | ⟨v, rfl, hn, ha⟩
  · exact .inl ⟨hn, fun b hb => wordChar_of_digit (ha b hb)⟩
  · exact .inr ⟨v, rfl, hn, fun b hb => wordChar_of_digit (ha b hb)⟩

theorem val_of_word {w : Text} (h : isWord w = true) : IsVal w := .inl h

theorem int_startsNot {w r : Text} (h : isInt w = true) : StartsNot isSpace (w ++ r) := val_startsNot (val_of_int h)

theorem startsNot_of_append_nil {p : Byte → Bool} {w : Text} (h : StartsNot p (w ++ [])) : StartsNot p w := by
  simpa using h

/-! ### The label pattern and the head of the five operand patterns -/

theorem matchLabel_iff (line name : Text) :
    matchLabel line = some name ↔ isWord name = true ∧ line = name ++ [ch ':'] := by
  simp only [matchLabel, Option.bind_eq_some_iff, Prod.exists, lexWord_iff, lexChar_iff, Option.ite_none_right_eq_some]
  constructor
  · rintro ⟨w, r, ⟨rfl, hw, _⟩, q, rfl, rfl, h⟩
    cases h
    exact ⟨hw, rfl⟩
  · rintro ⟨hw, rfl⟩
    exact ⟨name, [ch ':'], ⟨rfl, hw, by simp⟩, [], rfl, rfl, rfl⟩

theorem matchHead_iff (line op f1 r : Text) :
    matchHead line = some (op, f1, r) ↔
      ∃ g pad, line = headText op g f1 pad ++ r ∧ isWord op = true ∧ IsGap g ∧ isWord f1 = true ∧ IsPad pad ∧
        StartsNot isSpace r := by
  simp only [matchHead, Option.bind_eq_some_iff, Option.map_eq_some_iff, Prod.exists, Prod.mk.injEq, lexWord_iff,
    lexGap_iff, lexSep_iff, headText]
  constructor
  · rintro ⟨o, r1, ⟨rfl, ho, _⟩, r2, ⟨g, rfl, hg, _⟩, x, r3, ⟨rfl, hx, _⟩, q, ⟨pad, rfl, hp, hq⟩, rfl, rfl, rfl⟩
    exact ⟨g, pad, by simp, ho, hg, hx, hp, hq⟩
  · rintro ⟨g, pad, rfl, ho, hg, hx, hp, hr⟩
    refine ⟨op, g ++ (f1 ++ (ch ',' :: (pad ++ r))), ⟨by simp, ho, gap_startsNot hg⟩, f1 ++ (ch ',' :: (pad ++ r)),
      ⟨g, rfl, hg, word_startsNot hx⟩, f1, ch ',' :: (pad ++ r), ⟨rfl, hx, by simp⟩, r, ⟨pad, rfl, hp, hr⟩, rfl, rfl, rfl⟩

end Sys2Proof.Machine
end

