-- ==== Sys2Proof/Laws/Numbers.lean ====
section
/-! SUPPORT. Decimal literals and register names: writing one and reading it back (R70 to R77). -/

namespace Sys2Proof.Machine

theorem digitValue_digitChar {d : Nat} (h : d < 10) : digitValue (digitChar d) = d := by
  simp only [digitValue, digitChar, BitVec.toNat_ofNat]
  omega

theorem isDigit_digitChar {d : Nat} (h : d < 10) : isDigit (digitChar d) = true := by
  simp only [isDigit, digitChar, BitVec.toNat_ofNat, Bool.and_eq_true, decide_eq_true_eq]
  omega

/-- The digits of a number are a non-empty run of digit characters. -/
theorem decimalDigits_isRun (fuel n : Nat) : IsRun isDigit (decimalDigits fuel n) := by
  induction fuel generalizing n with
  | zero =>
    refine ⟨by simp [decimalDigits], fun b hb => ?_⟩
    simp only [decimalDigits, List.mem_singleton] at hb
    rw [hb]; exact isDigit_digitChar (Nat.mod_lt _ (by omega))
  | succ fuel ih =>
    unfold decimalDigits
    split
    · next h =>
      refine ⟨by simp, fun b hb => ?_⟩
      rw [List.mem_singleton.mp hb]; exact isDigit_digitChar h
    · refine ⟨by simp, fun b hb => ?_⟩
      rcases List.mem_append.mp hb with hb | hb
      · exact (ih _).2 b hb
      · rw [List.mem_singleton.mp hb]; exact isDigit_digitChar (Nat.mod_lt _ (by omega))

theorem decimalValue_append (t : Text) (b : Byte) : decimalValue (t ++ [b]) = decimalValue t * 10 + digitValue b := by
  simp [decimalValue, List.foldl_append]

/-- With enough fuel the digits' value is the number. -/
theorem decimalValue_decimalDigits (fuel n : Nat) (h : n < 10 ^ (fuel + 1)) :
    decimalValue (decimalDigits fuel n) = n := by
  induction fuel generalizing n with
  | zero =>
    have hn : n < 10 := by simpa using h
    have : n % 10 = n := Nat.mod_eq_of_lt hn
    simp [decimalDigits, decimalValue, this, digitValue_digitChar hn]
  | succ fuel ih =>
    unfold decimalDigits
    split
    · next hn => simp [decimalValue, digitValue_digitChar hn]
    · have hd : n / 10 < 10 ^ (fuel + 1) := by
        rw [Nat.pow_succ] at h
        exact Nat.div_lt_of_lt_mul (by rw [Nat.mul_comm]; exact h)
      rw [decimalValue_append, ih _ hd, digitValue_digitChar (Nat.mod_lt _ (by omega))]
      omega

theorem decimalValue_natText (n : Nat) : decimalValue (natText n) = n := by
  refine decimalValue_decimalDigits _ _ ?_
  calc n < 2 ^ (n.log2 + 1) := Nat.lt_log2_self
    _ ≤ 10 ^ (n.log2 + 1) := Nat.pow_le_pow_left (by omega) _
    _ ≤ 10 ^ (n.log2 + 1 + 1) := Nat.pow_le_pow_right (by omega) (by omega)

theorem natText_isRun (n : Nat) : IsRun isDigit (natText n) := decimalDigits_isRun _ _

/-- The text of an integer is an `INT` (R62). -/
theorem isInt_intText (i : Int) : isInt (intText i) = true := by
  rw [isInt_iff]
  unfold intText
  split
  · exact .inr ⟨_, rfl, natText_isRun _⟩
  · exact .inl (natText_isRun _)

/-- The text of an integer denotes the integer (R75). -/
theorem intValue_intText (i : Int) : intValue (intText i) = i := by
  unfold intText
  split
  · next h =>
    simp only [intValue, if_true, decimalValue_natText]
    omega
  · next h =>
    have hr := natText_isRun i.natAbs
    have hv := decimalValue_natText i.natAbs
    revert hr hv
    cases natText i.natAbs with
    | nil => intro hr; exact absurd rfl hr.1
    | cons c t =>
      intro hr hv
      have hc : c ≠ ch '-' := by
        intro e
        have := hr.2 c (by simp)
        rw [e, digit_minus] at this; cases this
      simp only [intValue, if_neg hc, hv]
      omega

/-- The name the encoder gives a nameable register resolves to it (R70 to R73). -/
theorem regResolve_regName (i : RegIx) (h : regNameable i = true) : regResolve (regName i) = some i := by
  revert i; decide

theorem isWord_regName (i : RegIx) (h : regNameable i = true) : isWord (regName i) = true := by
  revert i; decide

/-- A register some token resolves to is nameable (R23). -/
theorem regNameable_of_resolve {tok : Text} {i : RegIx} (h : regResolve tok = some i) : regNameable i = true := by
  unfold regResolve at h
  obtain ⟨e, he, rfl⟩ := Option.map_eq_some_iff.mp h
  exact List.any_eq_true.mpr ⟨e, List.mem_of_find?_eq_some he, by simp⟩

/-- The nameable registers are 0 to 27 and 29 (R23). -/
theorem nameable_iff (i : RegIx) : regNameable i = true ↔ (i.val ≤ 27 ∨ i = 29) := by
  revert i; decide

/-- An integer `ParseImm` answers is in the range of an immediate (R76). -/
theorem immInRange_of_parseImm {tok : Text} {i : Int} (h : parseImm tok = some i) : immInRange i = true := by
  unfold parseImm at h
  split at h
  · next hc => cases h; exact (Bool.and_eq_true _ _ ▸ hc).2
  · cases h

end Sys2Proof.Machine
end

