-- ==== Sys2Proof/Laws/Decode.lean ====
section
/-! SUPPORT. What the decoder does with a line, by its operator token (R79, R100 to R103). -/

namespace Sys2Proof.Machine

/-- The spelling of an operator is a `WORD`, so it holds no whitespace (R80). -/
theorem isWord_spelling (m : Mnemonic) : isWord (spelling m) = true := by cases m <;> decide

/-- An operator's spelling names it and nothing else (R80, R102). -/
theorem mnemonicOf_spelling (m : Mnemonic) : mnemonicOf (spelling m) = some m := by cases m <;> decide

theorem spelling_of_mnemonicOf {tok : Text} {m : Mnemonic} (h : mnemonicOf tok = some m) : spelling m = tok := by
  have := List.find?_some h
  simpa using this

/-- The empty token names no operator (R79). -/
theorem mnemonicOf_nil : mnemonicOf [] = none := by decide

/-- A line whose operator token is not empty is neither empty nor a label line (R79, R101). -/
theorem operatorOf_ne_nil {line : Text} (h : operatorOf line ≠ []) :
    line ≠ [] ∧ matchLabel line = none ∧ operatorOf line = line.takeWhile fun b => !isSpace b := by
  unfold operatorOf at h ⊢
  split at h
  · exact absurd rfl h
  · next hl =>
    split at h
    · exact absurd rfl h
    · next hm => exact ⟨hl, hm, if_neg hl⟩

/-- A line with a known operator is taken apart by that operator's pattern (R81, R102). -/
theorem decode_of_operator {line : Text} {m : Mnemonic} (h : mnemonicOf (operatorOf line) = some m) :
    decode line = decodeAs m line := by
  have hne : operatorOf line ≠ [] := by
    intro e
    rw [e, mnemonicOf_nil] at h
    cases h
  obtain ⟨hl, hm, _⟩ := operatorOf_ne_nil hne
  simp only [decode, if_neg hl, hm, h]

theorem decode_of_spelling {line : Text} {m : Mnemonic} (h : operatorOf line = spelling m) :
    decode line = decodeAs m line := decode_of_operator (by rw [h, mnemonicOf_spelling])

/-- A word, a whitespace character, then anything: the operator token is the word (R79). -/
theorem operatorOf_word_space (w rest : Text) (b : Byte) (hw : isWord w = true) (hb : isSpace b = true) :
    operatorOf (w ++ b :: rest) = w := by
  have hr := (isWord_iff w).mp hw
  have hl : w ++ b :: rest ≠ [] := by simp
  have hm : matchLabel (w ++ b :: rest) = none := by
    cases e : matchLabel (w ++ b :: rest) with
    | none => rfl
    | some name =>
      obtain ⟨hn, heq⟩ := (matchLabel_iff _ _).mp e
      have hmem : b ∈ name ++ [ch ':'] := by rw [← heq]; simp
      rcases List.mem_append.mp hmem with h | h
      · have := ((isWord_iff name).mp hn).2 b h
        rw [not_wordChar_of_space hb] at this; cases this
      · rw [List.mem_singleton.mp h, space_colon] at hb; cases hb
  unfold operatorOf
  rw [if_neg hl, hm]
  simp only
  rw [List.takeWhile_append_of_pos fun c hc => by simp [not_space_of_wordChar (hr.2 c hc)]]
  simp [hb]

/-! ### Inversion of the resolutions -/

theorem andThen_ok {α β : Type} {x : Checked α} {f : α → Checked β} {b : β} (h : x.andThen f = .ok b) :
    ∃ a, x = .ok a ∧ f a = .ok b := by
  cases x with
  | ok a => exact ⟨a, rfl, h⟩
  | raise e => cases h

theorem andThen_raise {α β : Type} {x : Checked α} {f : α → Checked β} {e : FaultCause} (h : x.andThen f = .raise e) :
    x = .raise e ∨ ∃ a, x = .ok a ∧ f a = .raise e := by
  cases x with
  | ok a => exact .inr ⟨a, rfl, h⟩
  | raise e' => cases h; exact .inl rfl

theorem resolveReg_ok {tok : Text} {i : RegIx} : resolveReg tok = .ok i ↔ regResolve tok = some i := by
  unfold resolveReg; split <;> simp_all

theorem resolveReg_raise {tok : Text} {e : FaultCause} :
    resolveReg tok = .raise e ↔ regResolve tok = none ∧ e = .unknownRegister tok := by
  cases h : regResolve tok <;> simp [resolveReg, h, eq_comm]

theorem resolveImm_ok {tok : Text} {i : Int} : resolveImm tok = .ok i ↔ parseImm tok = some i := by
  unfold resolveImm; split <;> simp_all

theorem resolveImm_raise {tok : Text} {e : FaultCause} :
    resolveImm tok = .raise e ↔ parseImm tok = none ∧ e = .invalidImmediate tok := by
  cases h : parseImm tok <;> simp [resolveImm, h, eq_comm]

theorem requireShape_ok {α : Type} {sh : Shape} {m : Option α} {a : α} : requireShape sh m = .ok a ↔ m = some a := by
  unfold requireShape; split <;> simp_all

theorem requireShape_raise {α : Type} {sh : Shape} {m : Option α} {e : FaultCause} :
    requireShape sh m = .raise e ↔ m = none ∧ e = .shapeMismatch (formText sh) := by
  cases m <;> simp [requireShape, eq_comm]

/-- The fault of a decode is one of four (R102, R103, R181 to R184). -/
inductive DecodeFault : FaultCause → Prop
  | unknownRegister (t : Text) : DecodeFault (.unknownRegister t)
  | invalidImmediate (t : Text) : DecodeFault (.invalidImmediate t)
  | shapeMismatch (t : Text) : DecodeFault (.shapeMismatch t)
  | unknownOperator (t : Text) : DecodeFault (.unknownOperator t)

theorem decodeFault_reg {tok : Text} {e : FaultCause} (h : resolveReg tok = .raise e) : DecodeFault e := by
  rw [(resolveReg_raise.mp h).2]; exact .unknownRegister _

theorem decodeFault_imm {tok : Text} {e : FaultCause} (h : resolveImm tok = .raise e) : DecodeFault e := by
  rw [(resolveImm_raise.mp h).2]; exact .invalidImmediate _

theorem decodeFault_shape {α : Type} {sh : Shape} {m : Option α} {e : FaultCause} (h : requireShape sh m = .raise e) :
    DecodeFault e := by
  rw [(requireShape_raise.mp h).2]; exact .shapeMismatch _

theorem decodeFault_rrr {mk : RegIx → RegIx → RegIx → Instr} {line : Text} {e : FaultCause}
    (h : decodeRrr mk line = .raise e) : DecodeFault e := by
  rcases andThen_raise h with h | ⟨f, _, h⟩
  · exact decodeFault_shape h
  rcases andThen_raise h with h | ⟨d, _, h⟩
  · exact decodeFault_reg h
  rcases andThen_raise h with h | ⟨a, _, h⟩
  · exact decodeFault_reg h
  rcases andThen_raise h with h | ⟨b, _, h⟩
  · exact decodeFault_reg h
  · cases h

theorem decodeFault_rri {mk : RegIx → RegIx → Int → Instr} {line : Text} {e : FaultCause}
    (h : decodeRri mk line = .raise e) : DecodeFault e := by
  rcases andThen_raise h with h | ⟨f, _, h⟩
  · exact decodeFault_shape h
  rcases andThen_raise h with h | ⟨d, _, h⟩
  · exact decodeFault_reg h
  rcases andThen_raise h with h | ⟨a, _, h⟩
  · exact decodeFault_reg h
  rcases andThen_raise h with h | ⟨b, _, h⟩
  · exact decodeFault_imm h
  · cases h

theorem decodeFault_rob {mk : RegIx → Int → RegIx → Instr} {line : Text} {e : FaultCause}
    (h : decodeRob mk line = .raise e) : DecodeFault e := by
  rcases andThen_raise h with h | ⟨f, _, h⟩
  · exact decodeFault_shape h
  rcases andThen_raise h with h | ⟨d, _, h⟩
  · exact decodeFault_reg h
  rcases andThen_raise h with h | ⟨a, _, h⟩
  · exact decodeFault_imm h
  rcases andThen_raise h with h | ⟨b, _, h⟩
  · exact decodeFault_reg h
  · cases h

theorem decodeFault_mv {line : Text} {e : FaultCause} (h : decodeMv line = .raise e) : DecodeFault e := by
  rcases andThen_raise h with h | ⟨f, _, h⟩
  · exact decodeFault_shape h
  rcases andThen_raise h with h | ⟨d, _, h⟩
  · exact decodeFault_reg h
  rcases andThen_raise h with h | ⟨a, _, h⟩
  · exact decodeFault_reg h
  · cases h

theorem decodeFault_li {line : Text} {e : FaultCause} (h : decodeLi line = .raise e) : DecodeFault e := by
  rcases andThen_raise h with h | ⟨f, _, h⟩
  · exact decodeFault_shape h
  rcases andThen_raise h with h | ⟨d, _, h⟩
  · exact decodeFault_reg h
  rcases andThen_raise h with h | ⟨a, _, h⟩
  · exact decodeFault_imm h
  · cases h

theorem decodeFault_jal {line : Text} {e : FaultCause} (h : decodeJal line = .raise e) : DecodeFault e := by
  rcases andThen_raise h with h | ⟨f, _, h⟩
  · exact decodeFault_shape h
  rcases andThen_raise h with h | ⟨d, _, h⟩
  · exact decodeFault_reg h
  · cases h

/-- What the decoder can raise (R102, R103). -/
theorem decode_raise {line : Text} {e : FaultCause} (h : decode line = .raise e) : DecodeFault e := by
  unfold decode at h
  split at h
  · cases h
  split at h
  · cases h
  split at h
  · cases h; exact .unknownOperator _
  next m _ =>
  cases m with
  | mv => exact decodeFault_mv h
  | li => exact decodeFault_li h
  | jal => exact decodeFault_jal h
  | lw => exact decodeFault_rob h
  | sw => exact decodeFault_rob h
  | addi => exact decodeFault_rri h
  | subi => exact decodeFault_rri h
  | andi => exact decodeFault_rri h
  | ori => exact decodeFault_rri h
  | xori => exact decodeFault_rri h
  | slli => exact decodeFault_rri h
  | slri => exact decodeFault_rri h
  | jalr => exact decodeFault_rri h
  | _ => exact decodeFault_rrr h

end Sys2Proof.Machine
end

