-- ==== Sys2Proof/Laws/Memory.lean ====
section
/-! SUPPORT. The laws of memory: a read after a write, and that every operation keeps the canonical form. -/

namespace Sys2Proof.Machine

/-- No byte is listed below the first address of a rising list. -/
theorem byteAt_below (m : Memory) (a : Nat) (h : ∀ c ∈ m, a < c.1) : m.byteAt a = Memory.unlisted := by
  induction m with
  | nil => rfl
  | cons c m ih =>
    have hc : c.1 ≠ a := Nat.ne_of_gt (h c (by simp))
    simp only [Memory.byteAt, hc, if_false]
    exact ih fun d hd => h d (by simp [hd])

/-- A byte read after a byte write: the byte written, or what was there. -/
theorem byteAt_setByte (m : Memory) (h : m.Pairwise fun c d => c.1 < d.1) (a x : Nat) (b : Byte) :
    (Memory.setByte m a b).byteAt x = if x = a then b else Memory.byteAt m x := by
  induction m with
  | nil =>
    by_cases hx : x = a
    · by_cases hb : b = Memory.unlisted <;> simp [Memory.setByte, Memory.byteAt, hb, hx]
    · by_cases hb : b = Memory.unlisted <;> simp [Memory.setByte, Memory.byteAt, hb, hx, Ne.symm hx]
  | cons c m ih =>
    obtain ⟨hc, hm⟩ := List.pairwise_cons.mp h
    have low : ∀ y, y ≤ c.1 → Memory.byteAt m y = Memory.unlisted :=
      fun y hy => byteAt_below m y fun d hd => Nat.lt_of_le_of_lt hy (hc d hd)
    by_cases lt : a < c.1
    · by_cases hb : b = Memory.unlisted
      · simp only [Memory.setByte, lt, hb, if_true]
        by_cases hx : x = a
        · rw [if_pos hx]
          simp only [Memory.byteAt, show c.1 ≠ x by omega, if_false]
          exact low x (by omega)
        · rw [if_neg hx]
      · simp only [Memory.setByte, lt, hb, if_true, if_false]
        by_cases hx : x = a
        · simp [Memory.byteAt, hx]
        · simp [Memory.byteAt, hx, Ne.symm hx]
    · by_cases eq : a = c.1
      · by_cases hb : b = Memory.unlisted
        · simp only [Memory.setByte, eq, hb, Nat.lt_irrefl, if_true, if_false]
          by_cases hx : x = c.1
          · rw [if_pos hx, low x (by omega)]
          · simp [Memory.byteAt, hx, Ne.symm hx]
        · simp only [Memory.setByte, eq, hb, Nat.lt_irrefl, if_true, if_false]
          by_cases hx : x = c.1
          · simp [Memory.byteAt, hx]
          · simp [Memory.byteAt, hx, Ne.symm hx]
      · simp only [Memory.setByte, lt, eq, if_false, Memory.byteAt]
        by_cases hx : c.1 = x
        · simp [hx, show x ≠ a by omega]
        · simp only [hx, if_false]
          exact ih hm

/-- Every address a byte write leaves listed was listed, or is the one written. -/
theorem mem_setByte (m : Memory) (a : Nat) (b : Byte) (c : Host.Cell) (h : c ∈ Memory.setByte m a b) :
    c ∈ m ∨ (c = (a, b) ∧ b ≠ Memory.unlisted) := by
  induction m with
  | nil =>
    by_cases hb : b = Memory.unlisted <;> simp_all [Memory.setByte]
  | cons d m ih =>
    by_cases hb : b = Memory.unlisted
    · left
      have ih' : c ∈ Memory.setByte m a b → c ∈ m := fun h => (ih h).resolve_right fun x => x.2 hb
      simp only [Memory.setByte, hb, if_true] at h ih'
      split at h
      · exact h
      · split at h
        · exact List.mem_cons_of_mem _ h
        · exact List.mem_cons.mpr ((List.mem_cons.mp h).imp id ih')
    · simp only [Memory.setByte, hb, if_false] at h
      split at h
      · exact (List.mem_cons.mp h).elim (fun h => .inr ⟨h, hb⟩) .inl
      · split at h
        · exact (List.mem_cons.mp h).elim (fun h => .inr ⟨h, hb⟩) fun h => .inl (List.mem_cons_of_mem _ h)
        · rcases List.mem_cons.mp h with h | h
          · exact .inl (h ▸ List.mem_cons_self)
          · exact (ih h).imp (List.mem_cons_of_mem _) id

/-- A byte write keeps the addresses rising. -/
theorem pairwise_setByte (m : Memory) (h : m.Pairwise fun c d => c.1 < d.1) (a : Nat) (b : Byte) :
    (m.setByte a b).Pairwise fun c d => c.1 < d.1 := by
  induction m with
  | nil => unfold Memory.setByte; split <;> simp
  | cons c m ih =>
    obtain ⟨hc, hm⟩ := List.pairwise_cons.mp h
    unfold Memory.setByte
    split
    · next lt =>
      split
      · exact h
      · refine List.pairwise_cons.mpr ⟨fun d hd => ?_, h⟩
        rcases List.mem_cons.mp hd with hd | hd
        · rw [hd]; exact lt
        · exact Nat.lt_trans lt (hc d hd)
    · next nlt =>
      split
      · next eq =>
        subst eq
        split
        · exact hm
        · exact List.pairwise_cons.mpr ⟨hc, hm⟩
      · next ne =>
        refine List.pairwise_cons.mpr ⟨fun d hd => ?_, ih hm⟩
        rcases mem_setByte m a b d hd with hd | hd
        · exact hc d hd
        · rw [hd.1]; omega

/-- A byte write inside the data space keeps the canonical form. -/
theorem setByte_wf (m : Memory) (h : Memory.wf m) (a : Nat) (ha : a < Config.memBytes) (b : Byte) :
    Memory.wf (m.setByte a b) := by
  refine ⟨pairwise_setByte m h.1 a b, fun c hc => ?_⟩
  rcases mem_setByte m a b c hc with hc | ⟨rfl, hb⟩
  · exact h.2 c hc
  · exact ⟨hb, ha⟩

/-- A word write inside the data space keeps the canonical form. -/
theorem setWordFrom_wf (m : Memory) (h : Memory.wf m) (a : Nat) (ha : a + 3 < Config.memBytes) (v : Word) :
    Memory.wf (m.setWordFrom a v) := by
  unfold Memory.setWordFrom
  exact setByte_wf _ (setByte_wf _ (setByte_wf _ (setByte_wf _ h _ (by omega) _) _ (by omega) _) _ (by omega) _) _ ha _

/-- A byte read after a word write. -/
theorem byteAt_setWordFrom (m : Memory) (h : m.Pairwise fun c d => c.1 < d.1) (a x : Nat) (v : Word) :
    (m.setWordFrom a v).byteAt x =
      if x = a + 3 then byteOfWord v 3 else if x = a + 2 then byteOfWord v 2
      else if x = a + 1 then byteOfWord v 1 else if x = a then byteOfWord v 0 else m.byteAt x := by
  unfold Memory.setWordFrom
  have h1 := pairwise_setByte m h a (byteOfWord v 0)
  have h2 := pairwise_setByte _ h1 (a + 1) (byteOfWord v 1)
  have h3 := pairwise_setByte _ h2 (a + 2) (byteOfWord v 2)
  rw [byteAt_setByte _ h3, byteAt_setByte _ h2, byteAt_setByte _ h1, byteAt_setByte _ h]

/-- A word is its four bytes. -/
theorem bytes_of_word (v : Word) : byteOfWord v 3 ++ byteOfWord v 2 ++ byteOfWord v 1 ++ byteOfWord v 0 = v := by
  apply BitVec.eq_of_getLsbD_eq
  intro i hi
  simp only [byteOfWord, BitVec.getLsbD_append, BitVec.getLsbD_extractLsb']
  rcases Nat.lt_or_ge i 8 with h | h
  · simp [h]
  · rcases Nat.lt_or_ge i 16 with h2 | h2
    · have e : 8 * 1 + (i - 8) = i := by omega
      simp [show ¬ i < 8 by omega, show i - 8 < 8 by omega, e]
    · rcases Nat.lt_or_ge i 24 with h3 | h3
      · have e : 8 * 2 + (i - 8 - 8) = i := by omega
        simp [show ¬ i < 8 by omega, show ¬ i - 8 < 8 by omega, show i - 8 - 8 < 8 by omega, e]
      · have e : 8 * 3 + (i - 8 - 8 - 8) = i := by omega
        simp [show ¬ i < 8 by omega, show ¬ i - 8 < 8 by omega, show ¬ i - 8 - 8 < 8 by omega,
          show i - 8 - 8 - 8 < 8 by omega, e]

/-- A word read after a write of the same word: the value written (R42). -/
theorem wordFrom_setWordFrom_same (m : Memory) (h : m.Pairwise fun c d => c.1 < d.1) (a : Nat) (v : Word) :
    (m.setWordFrom a v).wordFrom a = v := by
  have e := bytes_of_word v
  unfold Memory.wordFrom
  simp only [byteAt_setWordFrom m h]
  simpa using e

/-- A word read after a write of a word that shares no byte with it: what was there (R42). -/
theorem wordFrom_setWordFrom_other (m : Memory) (h : m.Pairwise fun c d => c.1 < d.1) (a x : Nat) (v : Word)
    (hx : x + 4 ≤ a ∨ a + 4 ≤ x) : (m.setWordFrom a v).wordFrom x = m.wordFrom x := by
  have out : ∀ y, (y < a ∨ a + 4 ≤ y) → (m.setWordFrom a v).byteAt y = m.byteAt y := by
    intro y hy
    rw [byteAt_setWordFrom m h, if_neg (by omega), if_neg (by omega), if_neg (by omega), if_neg (by omega)]
  unfold Memory.wordFrom
  rw [out _ (by omega), out _ (by omega), out _ (by omega), out _ (by omega)]

/-- The cell an aligned address names is at that address (R40). -/
theorem cellAddr_of_aligned (addr : Word) (h : addr.toNat % 4 = 0) : cellAddr (blockOf addr) (offsetOf addr) = addr.toNat := by
  simp only [cellAddr, blockOf, offsetOf, Config.blockBytes, Config.bytesPerWord]
  omega

/-- What `MemRead` can do (R41). -/
theorem memRead_cases (m : Memory) (addr : Word) :
    (addr.toNat % 4 ≠ 0 ∧ memRead m addr = .raise (.unalignedAccess addr)) ∨
    (addr.toNat % 4 = 0 ∧ 512 ≤ addr.toNat ∧ memRead m addr = .raise (.outOfBounds addr)) ∨
    (addr.toNat % 4 = 0 ∧ addr.toNat < 512 ∧ memRead m addr = .ok (m.wordFrom addr.toNat)) := by
  by_cases h : addr.toNat % 4 = 0
  · by_cases hb : addr.toNat < 512
    · refine .inr (.inr ⟨h, hb, ?_⟩)
      have : ¬ blockOf addr ≥ Config.nBlocks := by simp only [blockOf, Config.blockBytes, Config.nBlocks]; omega
      simp only [memRead, Config.bytesPerWord, h, ne_eq, not_true, if_false, if_neg this, Memory.wordAt,
        cellAddr_of_aligned addr h]
    · refine .inr (.inl ⟨h, by omega, ?_⟩)
      have : blockOf addr ≥ Config.nBlocks := by simp only [blockOf, Config.blockBytes, Config.nBlocks]; omega
      simp only [memRead, Config.bytesPerWord, h, ne_eq, not_true, if_false, if_pos this]
  · exact .inl ⟨h, by simp only [memRead, Config.bytesPerWord, ne_eq, h, not_false_eq_true, if_true]⟩

/-- What `MemWrite` can do (R42). -/
theorem memWrite_cases (m : Memory) (addr v : Word) :
    (addr.toNat % 4 ≠ 0 ∧ memWrite m addr v = .raise (.unalignedAccess addr)) ∨
    (addr.toNat % 4 = 0 ∧ 512 ≤ addr.toNat ∧ memWrite m addr v = .raise (.outOfBounds addr)) ∨
    (addr.toNat % 4 = 0 ∧ addr.toNat < 512 ∧ memWrite m addr v = .ok (m.setWordFrom addr.toNat v)) := by
  by_cases h : addr.toNat % 4 = 0
  · by_cases hb : addr.toNat < 512
    · refine .inr (.inr ⟨h, hb, ?_⟩)
      have : ¬ blockOf addr ≥ Config.nBlocks := by simp only [blockOf, Config.blockBytes, Config.nBlocks]; omega
      simp only [memWrite, Config.bytesPerWord, h, ne_eq, not_true, if_false, if_neg this, Memory.setWordAt,
        cellAddr_of_aligned addr h]
    · refine .inr (.inl ⟨h, by omega, ?_⟩)
      have : blockOf addr ≥ Config.nBlocks := by simp only [blockOf, Config.blockBytes, Config.nBlocks]; omega
      simp only [memWrite, Config.bytesPerWord, h, ne_eq, not_true, if_false, if_pos this]
  · exact .inl ⟨h, by simp only [memWrite, Config.bytesPerWord, ne_eq, h, not_false_eq_true, if_true]⟩

/-- The accessor never raises `EndOfProgram`: that is the stepper's (R188). -/
theorem memRead_raise {m : Memory} {addr : Word} {f : FaultCause} (h : memRead m addr = .raise f) : f ≠ .endOfProgram := by
  rcases memRead_cases m addr with ⟨_, e⟩ | ⟨_, _, e⟩ | ⟨_, _, e⟩ <;> rw [e] at h <;> cases h <;> simp

theorem memWrite_raise {m : Memory} {addr v : Word} {f : FaultCause} (h : memWrite m addr v = .raise f) :
    f ≠ .endOfProgram := by
  rcases memWrite_cases m addr v with ⟨_, e⟩ | ⟨_, _, e⟩ | ⟨_, _, e⟩ <;> rw [e] at h <;> cases h <;> simp

/-- A byte of a word read from memory (R49, decision D15). -/
theorem byteOfWord_wordFrom (m : Memory) (a k : Nat) (hk : k < 4) : byteOfWord (m.wordFrom a) k = m.byteAt (a + k) := by
  unfold byteOfWord Memory.wordFrom
  apply BitVec.eq_of_getLsbD_eq
  intro i hi
  simp only [BitVec.getLsbD_extractLsb', BitVec.getLsbD_append]
  have : k = 0 ∨ k = 1 ∨ k = 2 ∨ k = 3 := by omega
  rcases this with rfl | rfl | rfl | rfl
  · simp [hi]
  · simp [hi, show ¬ 8 + i < 8 by omega]
  · simp [hi, show ¬ 16 + i < 8 by omega, show ¬ 16 + i - 8 < 8 by omega, show 16 + i - 8 - 8 = i by omega]
  · simp [hi, show ¬ 24 + i < 8 by omega, show ¬ 24 + i - 8 < 8 by omega, show ¬ 24 + i - 8 - 8 < 8 by omega,
      show 24 + i - 8 - 8 - 8 = i by omega]

/-- A write the accessor performs keeps the canonical form. -/
theorem memWrite_wf (m m' : Memory) (h : Memory.wf m) (addr v : Word) (hw : memWrite m addr v = .ok m') :
    Memory.wf m' := by
  rcases memWrite_cases m addr v with ⟨_, e⟩ | ⟨_, _, e⟩ | ⟨ha, hb, e⟩ <;> rw [e] at hw
  · cases hw
  · cases hw
  · cases hw
    exact setWordFrom_wf m h _ (by simp only [Config.memBytes]; omega) v

/-- The memory after reset is in the canonical form (R221). -/
theorem reset_memory_wf : Memory.wf State.reset.mem := ⟨List.Pairwise.nil, fun _ h => nomatch h⟩

end Sys2Proof.Machine
end

