-- ==== Sys2Proof/Laws/State.lean ====
section
/-! SUPPORT. One lemma per field of `State` and per operation that updates it, and the reads of a register after a write. -/

namespace Sys2Proof.Machine

section fields
variable (s : State) (i : RegIx) (v p : Word) (f : FaultCause) (m : Memory)

@[simp] theorem writeReg_pc : (s.writeReg i v).pc = s.pc := rfl
@[simp] theorem writeReg_mem : (s.writeReg i v).mem = s.mem := rfl
@[simp] theorem writeReg_tags : (s.writeReg i v).tags = s.tags := rfl
@[simp] theorem writeReg_lines : (s.writeReg i v).lines = s.lines := rfl
@[simp] theorem writeReg_labels : (s.writeReg i v).labels = s.labels := rfl
@[simp] theorem writeReg_breakpoints : (s.writeReg i v).breakpoints = s.breakpoints := rfl
@[simp] theorem writeReg_status : (s.writeReg i v).status = s.status := rfl
@[simp] theorem writeReg_lastError : (s.writeReg i v).lastError = s.lastError := rfl

@[simp] theorem complete_pc : (complete p s).pc = p := rfl
@[simp] theorem complete_mem : (complete p s).mem = s.mem := rfl
@[simp] theorem complete_tags : (complete p s).tags = s.tags := rfl
@[simp] theorem complete_lines : (complete p s).lines = s.lines := rfl
@[simp] theorem complete_labels : (complete p s).labels = s.labels := rfl
@[simp] theorem complete_breakpoints : (complete p s).breakpoints = s.breakpoints := rfl
@[simp] theorem complete_status : (complete p s).status = s.status := rfl
@[simp] theorem complete_lastError : (complete p s).lastError = s.lastError := rfl

@[simp] theorem raiseFault_regs : (raiseFault f s).regs = s.regs := rfl
@[simp] theorem raiseFault_pc : (raiseFault f s).pc = s.pc := rfl
@[simp] theorem raiseFault_mem : (raiseFault f s).mem = s.mem := rfl
@[simp] theorem raiseFault_tags : (raiseFault f s).tags = s.tags := rfl
@[simp] theorem raiseFault_lines : (raiseFault f s).lines = s.lines := rfl
@[simp] theorem raiseFault_labels : (raiseFault f s).labels = s.labels := rfl
@[simp] theorem raiseFault_breakpoints : (raiseFault f s).breakpoints = s.breakpoints := rfl
@[simp] theorem raiseFault_status : (raiseFault f s).status = .halted (faultRecord f s) := rfl
@[simp] theorem raiseFault_lastError : (raiseFault f s).lastError = some (faultRecord f s) := rfl
@[simp] theorem raiseFault_readReg : (raiseFault f s).readReg i = s.readReg i := rfl

@[simp] theorem setMem_readReg : ({ s with mem := m } : State).readReg i = s.readReg i := rfl

end fields

/-- A register read after a write: the value written, or what was there (R7). -/
theorem readReg_writeReg (s : State) (i j : RegIx) (v : Word) :
    (s.writeReg i v).readReg j = if i = j then v else s.readReg j := by
  simp only [State.readReg, State.writeReg, Fin.getElem_fin, Vector.getElem_set, Fin.val_inj]

/-- A register read after a line completed: register 0 is 0 and the others are as they were (R22). -/
theorem readReg_complete (s : State) (p : Word) (j : RegIx) :
    (complete p s).readReg j = if j = 0 then 0 else s.readReg j := by
  have h : (complete p s).readReg j = (s.writeReg 0 0).readReg j := rfl
  rw [h, readReg_writeReg]
  simp only [eq_comm]

@[simp] theorem readReg_complete_zero (s : State) (p : Word) : (complete p s).readReg 0 = 0 := by
  rw [readReg_complete, if_pos rfl]

end Sys2Proof.Machine
end

