-- ==== Sys2Proof/Laws/Exec.lean ====
section
/-! SUPPORT. What one instruction, and one step, can do: said once, for the invariants and frames to cite. -/

namespace Sys2Proof.Machine

/-- Under the setting `mask5` a shift always has a result: the value shifted by the amount's low five bits (R113). -/
theorem shiftBy_eq (sh : Word → Nat → Word) (v a : Word) : shiftBy sh v a = some (sh v (a.toNat % 32)) := by
  unfold shiftBy
  split
  · next h => rw [Nat.mod_eq_of_lt h]
  · rfl

theorem shiftLeft_eq (v a : Word) : shiftLeft v a = some (v <<< (a.toNat % 32)) := shiftBy_eq _ v a

theorem shiftRight_eq (v a : Word) : shiftRight v a = some (v >>> (a.toNat % 32)) := shiftBy_eq _ v a

/-- The register an instruction writes, if it writes one (R24). -/
def destinationOf : Instr → Option RegIx
  | .mv rd _ | .li rd _ => some rd
  | .add rd _ _ | .sub rd _ _ | .mul rd _ _ | .and rd _ _ | .or rd _ _ | .xor rd _ _ | .sll rd _ _ | .slr rd _ _ => some rd
  | .addi rd _ _ | .subi rd _ _ | .andi rd _ _ | .ori rd _ _ | .xori rd _ _ | .slli rd _ _ | .slri rd _ _ => some rd
  | .jalr rd _ _ | .jal rd _ | .lw rd _ _ => some rd
  | .sw _ _ _ | .labelLine _ | .emptyLine => none

/-- The two instructions that set the `pc` themselves (R26). -/
def isJump : Instr → Bool
  | .jalr _ _ _ | .jal _ _ => true
  | _ => false

/-- Whether an instruction is a store (R28). -/
def isStore : Instr → Bool
  | .sw _ _ _ => true
  | _ => false

/-- How an executed line ends: it writes its destination and completes, or completes with no register written, or completes
after a store the accessor performed, or takes a fault. -/
inductive Ends (i : Instr) (s : State) : State → Prop
  | register (rd : RegIx) (v p : Word) (hd : destinationOf i = some rd) (hp : isJump i = true ∨ p = nextLine s) :
      Ends i s (complete p (s.writeReg rd v))
  | plain (hd : isJump i = false) : Ends i s (complete (nextLine s) s)
  | store (addr v : Word) (m : Memory) (hi : isStore i = true) (hm : memWrite s.mem addr v = .ok m) :
      Ends i s (complete (nextLine s) { s with mem := m })
  | fault (f : FaultCause) (hf : f ≠ .endOfProgram) : Ends i s (raiseFault f s)

/-- Every instruction answers a next state, in one of these ways: no meaning ends in a fault of the model or a refusal. -/
theorem exec_ends (i : Instr) (s : State) : ∃ t, exec i s = .next t ∧ Ends i s t := by
  cases i with
  | jal rd label =>
    simp only [exec, execJal]
    split
    · exact ⟨_, rfl, .register rd _ _ rfl (.inl rfl)⟩
    · exact ⟨_, rfl, .fault _ (by simp)⟩
  | jalr rd rs1 imm => exact ⟨_, rfl, .register rd _ _ rfl (.inl rfl)⟩
  | lw rd offs ra =>
    simp only [exec, execLw]
    split
    · exact ⟨_, rfl, .register rd _ _ rfl (.inr rfl)⟩
    · next f hf => exact ⟨_, rfl, .fault _ (memRead_raise hf)⟩
  | sw rs offs ra =>
    simp only [exec, execSw]
    split
    · next m hm => exact ⟨_, rfl, .store _ _ m rfl hm⟩
    · next f hf => exact ⟨_, rfl, .fault _ (memWrite_raise hf)⟩
  | labelLine name => exact ⟨_, rfl, .plain rfl⟩
  | emptyLine => exact ⟨_, rfl, .plain rfl⟩
  | sll rd rs1 rs2 =>
    simp only [exec, execSll, shiftLeft_eq]
    exact ⟨_, rfl, .register rd _ _ rfl (.inr rfl)⟩
  | slr rd rs1 rs2 =>
    simp only [exec, execSlr, shiftRight_eq]
    exact ⟨_, rfl, .register rd _ _ rfl (.inr rfl)⟩
  | slli rd rs1 imm =>
    simp only [exec, execSlli, shiftLeft_eq]
    exact ⟨_, rfl, .register rd _ _ rfl (.inr rfl)⟩
  | slri rd rs1 imm =>
    simp only [exec, execSlri, shiftRight_eq]
    exact ⟨_, rfl, .register rd _ _ rfl (.inr rfl)⟩
  | _ => exact ⟨_, rfl, .register _ _ _ rfl (.inr rfl)⟩

/-- The inversion of `exec`. -/
theorem ends_of_exec {i : Instr} {s t : State} (h : exec i s = .next t) : Ends i s t := by
  obtain ⟨u, hu, he⟩ := exec_ends i s
  rw [hu] at h
  cases h
  exact he

/-- What one step can do (R100, R195, R198): in the status `Ready` it takes `EndOfProgram`, takes a decode fault, or performs
the decoded instruction; in the status `Halted` there is none. -/
theorem step_cases {s t : State} (h : step s = .next t) :
    s.status = .ready ∧
      ((s.lines[s.pc.toNat]? = none ∧ t = raiseFault .endOfProgram s) ∨
       ∃ line, s.lines[s.pc.toNat]? = some line ∧
         ((∃ f, decode line = .raise f ∧ t = raiseFault f s) ∨
          ∃ i, decode line = .ok i ∧ exec i s = .next t ∧ Ends i s t)) := by
  unfold step stepSession at h
  split at h
  · next hr =>
    refine ⟨hr, ?_⟩
    unfold attempt fetch at h
    split at h
    · next line hl =>
      refine .inr ⟨line, hl, ?_⟩
      unfold execute at h
      split at h
      · next i hi => exact .inr ⟨i, hi, h, ends_of_exec h⟩
      · next f hf => cases h; exact .inl ⟨f, hf, rfl⟩
    · next hn => cases h; exact .inl ⟨hn, rfl⟩
  · cases h

/-- A step in the status `Ready` whose line decodes is that instruction (R100). -/
theorem step_of_decode {s : State} {line : Text} {i : Instr} (hr : s.status = .ready)
    (hl : s.lines[s.pc.toNat]? = some line) (hd : decode line = .ok i) : step s = exec i s := by
  simp only [step, stepSession, hr, attempt, fetch, hl, execute, hd]

/-- A step in the status `Ready` whose line does not decode takes the fault (R100). -/
theorem step_of_decode_fault {s : State} {line : Text} {f : FaultCause} (hr : s.status = .ready)
    (hl : s.lines[s.pc.toNat]? = some line) (hd : decode line = .raise f) : step s = .next (raiseFault f s) := by
  simp only [step, stepSession, hr, attempt, fetch, hl, execute, hd]

/-- A step in the status `Ready` at or past the line count (R198). -/
theorem step_at_end {s : State} (hr : s.status = .ready) (hl : s.lines[s.pc.toNat]? = none) :
    step s = .next (raiseFault .endOfProgram s) := by
  simp only [step, stepSession, hr, attempt, fetch, hl]

/-- A `Halted` session has no step (R195). -/
theorem step_halted {s : State} {r : FaultRecord} (hr : s.status = .halted r) : step s = .fault .halted := by
  simp only [step, stepSession, hr]

/-- What every line leaves alone (R30, R31, R32, R33). -/
theorem Ends.keeps {i : Instr} {s t : State} (h : Ends i s t) :
    t.tags = s.tags ∧ t.lines = s.lines ∧ t.labels = s.labels ∧ t.breakpoints = s.breakpoints := by
  cases h <;> exact ⟨rfl, rfl, rfl, rfl⟩

/-- The two ends of a line by its status: completed with `x[0] = 0`, or halted with nothing else changed (R22, R192). -/
theorem Ends.status_cases {i : Instr} {s t : State} (h : Ends i s t) :
    (t.status = s.status ∧ t.lastError = s.lastError ∧ t.readReg 0 = 0) ∨ ∃ f, t = raiseFault f s := by
  cases h with
  | fault f _ => exact .inr ⟨f, rfl⟩
  | register rd v p _ _ => exact .inl ⟨rfl, rfl, readReg_complete_zero _ _⟩
  | plain _ => exact .inl ⟨rfl, rfl, readReg_complete_zero _ _⟩
  | store addr v m _ _ => exact .inl ⟨rfl, rfl, readReg_complete_zero _ _⟩

end Sys2Proof.Machine
end

