-- ==== Sys2Proof/Laws/Labels.lean ====
section
/-! SUPPORT. The label table: what recording a label does to a lookup and to the keys (R106, R107). -/

namespace Sys2Proof.Machine

/-- A lookup after a label is recorded: a new name gets the line; a name with an entry keeps it or gets the line, as the free
value says (`90_conflicts.md` C2); another name is as it was. -/
theorem labelLookup_recordLabel (table : List (Text × Word)) (name n : Text) (k : Nat) :
    labelLookup (recordLabel table name k) n =
      if n = name then
        match labelLookup table name with
        | none => some (BitVec.ofNat 32 k)
        | some v => some (if Config.dupLabelReplaces name k then BitVec.ofNat 32 k else v)
      else labelLookup table n := by
  induction table with
  | nil => by_cases h : n = name <;> simp [recordLabel, labelLookup, h, eq_comm]; simp [Ne.symm h]
  | cons e rest ih =>
    unfold recordLabel
    by_cases he : e.1 = name
    · rw [if_pos he]
      by_cases h : n = name
      · simp [labelLookup, h, he]
      · simp [labelLookup, h, he, Ne.symm h]
    · rw [if_neg he]
      by_cases h : n = name
      · subst h
        simp only [labelLookup, he, if_false, ih, if_true]
      · simp only [labelLookup, ih, h, if_false]

/-- The keys after a label is recorded: the name is added if it was not one (R32). -/
theorem keys_recordLabel (table : List (Text × Word)) (name : Text) (k : Nat) :
    (recordLabel table name k).map Prod.fst =
      if name ∈ table.map Prod.fst then table.map Prod.fst else table.map Prod.fst ++ [name] := by
  induction table with
  | nil => simp [recordLabel]
  | cons e rest ih =>
    unfold recordLabel
    by_cases he : e.1 = name
    · simp [he]
    · rw [if_neg he, List.map_cons, ih]
      by_cases hm : name ∈ rest.map Prod.fst
      · rw [if_pos hm, if_pos (by rw [List.map_cons]; exact List.mem_cons_of_mem _ hm), List.map_cons]
      · rw [if_neg hm, if_neg (by rw [List.map_cons, List.mem_cons, not_or]; exact ⟨Ne.symm he, hm⟩), List.map_cons,
          List.cons_append]

/-- A name is a key exactly if it has a lookup. -/
theorem labelLookup_eq_none_iff (table : List (Text × Word)) (name : Text) :
    labelLookup table name = none ↔ name ∉ table.map Prod.fst := by
  induction table with
  | nil => simp [labelLookup]
  | cons e rest ih =>
    by_cases he : e.1 = name
    · simp [labelLookup, he]
    · simp only [labelLookup, he, if_false, ih, List.map_cons, List.mem_cons, not_or]
      exact ⟨fun h => ⟨Ne.symm he, h⟩, fun h => h.2⟩

end Sys2Proof.Machine
end

