-- ==== Sys2Proof/Laws/PerInstr.lean ====
section
/-! SUPPORT. Statements made per instruction.  `OperatorOfEncode`: the text of a well-formed instruction has the operator
token its row of the opcode table names, and the two lines without an operator have the empty one (R79, R82, R101). -/

namespace Sys2Proof.Laws

/-- The operator an instruction's row names. -/
def operatorText : Instr → Text
  | .mv _ _ => text "MV" | .li _ _ => text "LI"
  | .add _ _ _ => text "ADD"
  | .sub _ _ _ => text "SUB"
  | .mul _ _ _ => text "MUL"
  | .and _ _ _ => text "AND"
  | .or _ _ _ => text "OR"
  | .xor _ _ _ => text "XOR"
  | .sll _ _ _ => text "SLL"
  | .slr _ _ _ => text "SLR"
  | .addi _ _ _ => text "ADDI"
  | .subi _ _ _ => text "SUBI"
  | .andi _ _ _ => text "ANDI"
  | .ori _ _ _ => text "ORI"
  | .xori _ _ _ => text "XORI"
  | .slli _ _ _ => text "SLLI"
  | .slri _ _ _ => text "SLRI"
  | .jalr _ _ _ => text "JALR"
  | .jal _ _ => text "JAL" | .lw _ _ _ => text "LW" | .sw _ _ _ => text "SW"
  | .labelLine _ => [] | .emptyLine => []

/-- The statement about one instruction. -/
def OperatorOfEncode.Statement (i : Instr) : Prop :=
  i.wellFormed = true → operatorOf (encode i) = operatorText i

/-- A line that begins with an operator's spelling and a space has that operator. -/
theorem operatorOf_spelling_space (m : Mnemonic) (rest : Text) :
    operatorOf (spelling m ++ text " " ++ rest) = spelling m := by
  rw [List.append_assoc]
  exact Machine.operatorOf_word_space (spelling m) rest _ (Machine.isWord_spelling m) (by decide)

theorem operatorOf_line2 (m : Mnemonic) (f1 f2 : Text) : operatorOf (line2 m f1 f2) = spelling m := by
  simpa only [line2, List.append_assoc] using operatorOf_spelling_space m (f1 ++ (text ", " ++ f2))

theorem operatorOf_line3 (m : Mnemonic) (f1 f2 f3 : Text) : operatorOf (line3 m f1 f2 f3) = spelling m := by
  simpa only [line3, List.append_assoc] using operatorOf_spelling_space m (f1 ++ (text ", " ++ (f2 ++ (text ", " ++ f3))))

theorem operatorOf_lineRob (m : Mnemonic) (f1 f2 f3 : Text) : operatorOf (lineRob m f1 f2 f3) = spelling m := by
  simpa only [lineRob, List.append_assoc] using
    operatorOf_spelling_space m (f1 ++ (text ", " ++ (f2 ++ (text "(" ++ (f3 ++ text ")")))))

theorem OperatorOfEncode.mv (rd rs : RegIx) : OperatorOfEncode.Statement (.mv rd rs) := fun _ => operatorOf_line2 .mv _ _

theorem OperatorOfEncode.li (rd : RegIx) (imm : Int) : OperatorOfEncode.Statement (.li rd imm) :=
  fun _ => operatorOf_line2 .li _ _

theorem OperatorOfEncode.add (rd rs1 rs2 : RegIx) : OperatorOfEncode.Statement (.add rd rs1 rs2) :=
  fun _ => operatorOf_line3 .add _ _ _

theorem OperatorOfEncode.sub (rd rs1 rs2 : RegIx) : OperatorOfEncode.Statement (.sub rd rs1 rs2) :=
  fun _ => operatorOf_line3 .sub _ _ _

theorem OperatorOfEncode.mul (rd rs1 rs2 : RegIx) : OperatorOfEncode.Statement (.mul rd rs1 rs2) :=
  fun _ => operatorOf_line3 .mul _ _ _

theorem OperatorOfEncode.and (rd rs1 rs2 : RegIx) : OperatorOfEncode.Statement (.and rd rs1 rs2) :=
  fun _ => operatorOf_line3 .and _ _ _

theorem OperatorOfEncode.or (rd rs1 rs2 : RegIx) : OperatorOfEncode.Statement (.or rd rs1 rs2) :=
  fun _ => operatorOf_line3 .or _ _ _

theorem OperatorOfEncode.xor (rd rs1 rs2 : RegIx) : OperatorOfEncode.Statement (.xor rd rs1 rs2) :=
  fun _ => operatorOf_line3 .xor _ _ _

theorem OperatorOfEncode.sll (rd rs1 rs2 : RegIx) : OperatorOfEncode.Statement (.sll rd rs1 rs2) :=
  fun _ => operatorOf_line3 .sll _ _ _

theorem OperatorOfEncode.slr (rd rs1 rs2 : RegIx) : OperatorOfEncode.Statement (.slr rd rs1 rs2) :=
  fun _ => operatorOf_line3 .slr _ _ _

theorem OperatorOfEncode.addi (rd rs1 : RegIx) (imm : Int) : OperatorOfEncode.Statement (.addi rd rs1 imm) :=
  fun _ => operatorOf_line3 .addi _ _ _

theorem OperatorOfEncode.subi (rd rs1 : RegIx) (imm : Int) : OperatorOfEncode.Statement (.subi rd rs1 imm) :=
  fun _ => operatorOf_line3 .subi _ _ _

theorem OperatorOfEncode.andi (rd rs1 : RegIx) (imm : Int) : OperatorOfEncode.Statement (.andi rd rs1 imm) :=
  fun _ => operatorOf_line3 .andi _ _ _

theorem OperatorOfEncode.ori (rd rs1 : RegIx) (imm : Int) : OperatorOfEncode.Statement (.ori rd rs1 imm) :=
  fun _ => operatorOf_line3 .ori _ _ _

theorem OperatorOfEncode.xori (rd rs1 : RegIx) (imm : Int) : OperatorOfEncode.Statement (.xori rd rs1 imm) :=
  fun _ => operatorOf_line3 .xori _ _ _

theorem OperatorOfEncode.slli (rd rs1 : RegIx) (imm : Int) : OperatorOfEncode.Statement (.slli rd rs1 imm) :=
  fun _ => operatorOf_line3 .slli _ _ _

theorem OperatorOfEncode.slri (rd rs1 : RegIx) (imm : Int) : OperatorOfEncode.Statement (.slri rd rs1 imm) :=
  fun _ => operatorOf_line3 .slri _ _ _

theorem OperatorOfEncode.jalr (rd rs1 : RegIx) (imm : Int) : OperatorOfEncode.Statement (.jalr rd rs1 imm) :=
  fun _ => operatorOf_line3 .jalr _ _ _

theorem OperatorOfEncode.jal (rd : RegIx) (label : Text) : OperatorOfEncode.Statement (.jal rd label) :=
  fun _ => operatorOf_line2 .jal _ _

theorem OperatorOfEncode.lw (rd : RegIx) (offs : Int) (ra : RegIx) : OperatorOfEncode.Statement (.lw rd offs ra) :=
  fun _ => operatorOf_lineRob .lw _ _ _

theorem OperatorOfEncode.sw (rs : RegIx) (offs : Int) (ra : RegIx) : OperatorOfEncode.Statement (.sw rs offs ra) :=
  fun _ => operatorOf_lineRob .sw _ _ _

theorem OperatorOfEncode.labelLine (name : Text) : OperatorOfEncode.Statement (.labelLine name) := by
  intro h
  have hm : matchLabel (encode (.labelLine name)) = some name := (Machine.matchLabel_iff _ _).mpr ⟨h, rfl⟩
  unfold operatorOf
  rw [hm]
  split <;> rfl

theorem OperatorOfEncode.emptyLine : OperatorOfEncode.Statement .emptyLine := fun _ => rfl

end Sys2Proof.Laws
end

