-- ==== Sys2Proof/Laws/Sequencer.lean ====
section
/-! SUPPORT. Batches: the induction over a batch, packaged once; and the laws of trimming and of the breakpoint set. -/

namespace Sys2Proof.Machine

/-- The line at `pc` of a `Ready` session is what the step executes. -/
theorem step_eq_execute {s : State} {line : Text} (hr : s.status = .ready) (hl : s.lines[s.pc.toNat]? = some line) :
    step s = execute line s := by
  simp only [step, stepSession, hr, attempt, fetch, hl]

/-- Executing a line always answers a next state. -/
theorem execute_answers (line : Text) (s : State) : ∃ t, execute line s = .next t := by
  unfold execute
  split
  · obtain ⟨t, ht, _⟩ := exec_ends _ s
    exact ⟨t, ht⟩
  · exact ⟨_, rfl⟩

/-- One attempt of a batch that finds a line, breakpoints aside: the line is executed, and the batch goes on if the session is
still `Ready` (R199). -/
theorem runBatch_line {first : Bool} {n : Nat} {s t : State} {line : Text} (hl : s.lines[s.pc.toNat]? = some line)
    (hb : (!first && decide (s.pc ∈ s.breakpoints)) = false) (ht : execute line s = .next t) :
    runBatch first (n + 1) s = match t.status with
      | .ready => runBatch false n t
      | .halted _ => .next (false, t) := by
  cases hs : t.status <;> simp only [runBatch, fetch, hl, hb, ht, hs, Bool.false_eq_true, if_false]

/-- What holds of a state and is kept by every step holds of the state a batch ends in (R199). -/
theorem runBatch_induction {P : State → Prop} (keep : ∀ s t, P s → step s = .next t → P t) (n : Nat) :
    ∀ (first : Bool) (s : State) (b : Bool) (t : State), s.status = .ready → P s → runBatch first n s = .next (b, t) →
      P t := by
  induction n with
  | zero => intro first s b t _ hp h; cases h; exact hp
  | succ n ih =>
    intro first s b t hr hp h
    cases hl : s.lines[s.pc.toNat]? with
    | none =>
      simp only [runBatch, fetch, hl] at h
      split at h
      · cases h; exact keep _ _ hp (step_at_end hr hl)
      · cases h; exact hp
    | some line =>
      cases hb : (!first && decide (s.pc ∈ s.breakpoints)) with
      | true =>
        simp only [runBatch, fetch, hl, hb, if_true] at h
        cases h; exact hp
      | false =>
        obtain ⟨u, hu⟩ := execute_answers line s
        have hpu : P u := keep _ _ hp (by rw [step_eq_execute hr hl, hu])
        rw [runBatch_line hl hb hu] at h
        cases hs : u.status with
        | ready => rw [hs] at h; exact ih false u b t hs hpu h
        | halted r => rw [hs] at h; cases h; exact hpu

/-- The same for the host's `runAmount`. -/
theorem runAmount_induction {P : State → Prop} (keep : ∀ s t, P s → step s = .next t → P t) {n : Nat} {s t : State} {b : Bool}
    (hp : P s) (h : runAmount n s = .next (b, t)) : P t := by
  unfold runAmount at h
  split at h
  · next hr => exact runBatch_induction keep n true s b t hr hp h
  · cases h

/-! ### Trimming (R31, R61, R203) -/

theorem head?_dropWhile_isSpace (l : Text) : (l.dropWhile isSpace).head?.any isSpace = false := by
  have h := List.head?_dropWhile_not isSpace l
  cases e : (l.dropWhile isSpace).head? with
  | none => rfl
  | some b => rw [e] at h; simpa using h

/-- What trimming leaves is trimmed. -/
theorem isTrimmed_trim (l : Text) : isTrimmed (trim l) = true := by
  unfold isTrimmed trim
  have h1 := head?_dropWhile_isSpace l
  have h2 := head?_dropWhile_isSpace (l.dropWhile isSpace).reverse
  rw [List.getLast?_reverse, h2]
  have h3 : (((l.dropWhile isSpace).reverse).dropWhile isSpace).reverse.head?.any isSpace = false := by
    rw [List.head?_reverse]
    obtain ⟨t, ht⟩ := List.dropWhile_suffix isSpace (l := (l.dropWhile isSpace).reverse)
    cases e : ((l.dropWhile isSpace).reverse.dropWhile isSpace).getLast? with
    | none => rfl
    | some b =>
      have hb : (l.dropWhile isSpace).head? = some b := by
        have : (l.dropWhile isSpace).reverse.getLast? = some b := by
          rw [← ht, List.getLast?_append, e]; rfl
        rwa [List.getLast?_reverse] at this
      rw [hb] at h1
      simpa using h1
  rw [h3]; rfl

/-! ### The breakpoint set (R33, R205) -/

theorem mem_insertIndex (k j : Word) (bs : List Word) : j ∈ insertIndex k bs ↔ j = k ∨ j ∈ bs := by
  induction bs with
  | nil => simp [insertIndex]
  | cons b bs ih =>
    unfold insertIndex
    split
    · simp
    · split
      · next h => subst h; simp
      · simp only [List.mem_cons, ih]; tauto

/-- Putting an index in keeps the rising order. -/
theorem pairwise_insertIndex (k : Word) (bs : List Word) (h : bs.Pairwise fun a b => a.toNat < b.toNat) :
    (insertIndex k bs).Pairwise fun a b => a.toNat < b.toNat := by
  induction bs with
  | nil => simp [insertIndex]
  | cons b bs ih =>
    obtain ⟨hb, hbs⟩ := List.pairwise_cons.mp h
    unfold insertIndex
    split
    · next lt =>
      refine List.pairwise_cons.mpr ⟨fun c hc => ?_, h⟩
      rcases List.mem_cons.mp hc with rfl | hc
      · exact lt
      · exact Nat.lt_trans lt (hb c hc)
    · next nlt =>
      split
      · exact h
      · next ne =>
        refine List.pairwise_cons.mpr ⟨fun c hc => ?_, ih hbs⟩
        rcases (mem_insertIndex k c bs).mp hc with rfl | hc
        · have : c.toNat ≠ b.toNat := fun e => ne (BitVec.eq_of_toNat_eq e)
          omega
        · exact hb c hc

/-! ### Other tags, and repeated steps -/

@[simp] theorem withTags_status (τ : Vector CoherenceTag 8) (s : State) : (withTags τ s).status = s.status := rfl
@[simp] theorem withTags_pc (τ : Vector CoherenceTag 8) (s : State) : (withTags τ s).pc = s.pc := rfl
@[simp] theorem withTags_mem (τ : Vector CoherenceTag 8) (s : State) : (withTags τ s).mem = s.mem := rfl
@[simp] theorem withTags_lines (τ : Vector CoherenceTag 8) (s : State) : (withTags τ s).lines = s.lines := rfl
@[simp] theorem withTags_labels (τ : Vector CoherenceTag 8) (s : State) : (withTags τ s).labels = s.labels := rfl
@[simp] theorem withTags_breakpoints (τ : Vector CoherenceTag 8) (s : State) :
    (withTags τ s).breakpoints = s.breakpoints := rfl
@[simp] theorem withTags_readReg (τ : Vector CoherenceTag 8) (s : State) (i : RegIx) :
    (withTags τ s).readReg i = s.readReg i := rfl

/-- The first of several steps. -/
theorem runSteps_succ {n : Nat} {s u : State} (h : step s = .next u) : runSteps (n + 1) s = runSteps n u := by
  simp only [runSteps, h]

end Sys2Proof.Machine
end

