-- ==== Sys2Proof/Tests/Slice0.lean ====
section
/-! SUPPORT. The model's own tests.  Every expected value is taken from the spec's text: `95_test_vectors.md` (vector names
`V-...`, examples `S1` to `S10`), the forms of `30_encoding.md`, or the rule a comment names.  Then, for every statement with
hypotheses, a `witness_...` theorem that meets them. -/

namespace Sys2Proof.Tests

open Sys2Proof Sys2Proof.Machine

/-! ### Helpers -/

/-- A session at line `pc`, which holds `line`, the lines before it empty, with some registers set. -/
def sessionAt (pc : Nat) (line : String) (rs : List (RegIx × Word)) : State :=
  { setProgram (List.replicate pc [] ++ [text line]) (rs.foldl (fun s p => s.writeReg p.1 p.2) State.reset) with
    pc := BitVec.ofNat 32 pc }

/-- A register after one step that completes. -/
def regAfter (s : State) (r : RegIx) : Option Word :=
  match step s with
  | .next t => if t.status = .ready then some (t.readReg r) else none
  | .fault _ | .refused _ => none

/-- The `pc` after one step that completes. -/
def pcAfter (s : State) : Option Word :=
  match step s with
  | .next t => if t.status = .ready then some t.pc else none
  | .fault _ | .refused _ => none

/-- A memory word after one step that completes. -/
def wordAfter (s : State) (b w : Nat) : Option Word :=
  match step s with
  | .next t => if t.status = .ready then some (t.mem.wordAt b w) else none
  | .fault _ | .refused _ => none

/-- The fault one step takes. -/
def faultOf (s : State) : Option FaultCause :=
  match step s with
  | .next t =>
    match t.status with
    | .halted r => some r.cause
    | .ready => none
  | .fault _ | .refused _ => none

/-! ### Well-formedness: a term each check refuses -/

theorem test_wf_mv_rd : (Instr.mv 28 1).wellFormed = false := by decide
theorem test_wf_mv_rs : (Instr.mv 1 30).wellFormed = false := by decide
theorem test_wf_li_rd : (Instr.li 31 0).wellFormed = false := by decide
theorem test_wf_li_high : (Instr.li 1 2147483648).wellFormed = false := by decide
theorem test_wf_li_low : (Instr.li 1 (-2147483649)).wellFormed = false := by decide
theorem test_wf_rrr_rd : (Instr.add 28 1 2).wellFormed = false := by decide
theorem test_wf_rrr_rs1 : (Instr.slr 1 28 2).wellFormed = false := by decide
theorem test_wf_rrr_rs2 : (Instr.xor 1 2 28).wellFormed = false := by decide
theorem test_wf_rri_rd : (Instr.addi 30 1 0).wellFormed = false := by decide
theorem test_wf_rri_rs1 : (Instr.jalr 1 31 0).wellFormed = false := by decide
theorem test_wf_rri_imm : (Instr.slri 1 2 2147483648).wellFormed = false := by decide
theorem test_wf_jal_rd : (Instr.jal 28 (text "a")).wellFormed = false := by decide
theorem test_wf_jal_label : (Instr.jal 1 (text "a-b")).wellFormed = false := by decide
theorem test_wf_lw_rd : (Instr.lw 28 0 1).wellFormed = false := by decide
theorem test_wf_lw_offset : (Instr.lw 1 (-2147483649) 1).wellFormed = false := by decide
theorem test_wf_sw_base : (Instr.sw 1 0 28).wellFormed = false := by decide
theorem test_wf_label_empty : (Instr.labelLine []).wellFormed = false := by decide
theorem test_wf_label_space : (Instr.labelLine (text "a b")).wellFormed = false := by decide
/-- The integers at both ends of the range, index 29 and the empty line are accepted (R73, R76). -/
theorem test_wf_accepts :
    (Instr.li 29 2147483647).wellFormed = true ∧ (Instr.sw 27 (-2147483648) 0).wellFormed = true ∧
    (Instr.emptyLine).wellFormed = true := by decide

/-! ### Decoding: lines written out from the forms of R63 to R69 -/

/-- One character code per byte (R60): the line `MV x6, x5` is 4D 56 20 78 36 2C 20 78 35. -/
theorem test_decode_bytes :
    decode [0x4D, 0x56, 0x20, 0x78, 0x36, 0x2C, 0x20, 0x78, 0x35] = .ok (.mv 6 5) := by decide
/-- The line `loop:` is 6C 6F 6F 70 3A. -/
theorem test_decode_bytes_label :
    decode [0x6C, 0x6F, 0x6F, 0x70, 0x3A] = .ok (.labelLine [0x6C, 0x6F, 0x6F, 0x70]) := by decide
/-- The line `LW x1,8(x2)` is 4C 57 20 78 31 2C 38 28 78 32 29. -/
theorem test_decode_bytes_lw :
    decode [0x4C, 0x57, 0x20, 0x78, 0x31, 0x2C, 0x38, 0x28, 0x78, 0x32, 0x29] = .ok (.lw 1 8 2) := by decide
/-- The line `SUBI a0, sp, -7` with a tab (09) for the first gap. -/
theorem test_decode_bytes_subi :
    decode [0x53, 0x55, 0x42, 0x49, 0x09, 0x61, 0x30, 0x2C, 0x20, 0x73, 0x70, 0x2C, 0x20, 0x2D, 0x37] =
      .ok (.subi 10 2 (-7)) := by decide

theorem test_decode_mv : decode (text "MV x20, s4") = .ok (.mv 20 29) := by decide
theorem test_decode_li : decode (text "LI x5, 007") = .ok (.li 5 7) := by decide
theorem test_decode_add : decode (text "ADD x1,x2,x3") = .ok (.add 1 2 3) := by decide
theorem test_decode_sub : decode (text "SUB x7, x5, x6") = .ok (.sub 7 5 6) := by decide
theorem test_decode_mul : decode (text "MUL x7, x5, x0") = .ok (.mul 7 5 0) := by decide
theorem test_decode_and : decode (text "AND x7, x5, x6") = .ok (.and 7 5 6) := by decide
theorem test_decode_or : decode (text "OR x7, x5, x6") = .ok (.or 7 5 6) := by decide
theorem test_decode_xor : decode (text "XOR x7, x5, x6") = .ok (.xor 7 5 6) := by decide
theorem test_decode_sll : decode (text "SLL x7, x5, x6") = .ok (.sll 7 5 6) := by decide
theorem test_decode_slr : decode (text "SLR x7, x5, x6") = .ok (.slr 7 5 6) := by decide
theorem test_decode_addi : decode (text "ADDI x7, x5, -2147483648") = .ok (.addi 7 5 (-2147483648)) := by decide
theorem test_decode_subi : decode (text "SUBI x7, x5, -3") = .ok (.subi 7 5 (-3)) := by decide
theorem test_decode_andi : decode (text "ANDI x7, x5, -16") = .ok (.andi 7 5 (-16)) := by decide
theorem test_decode_ori : decode (text "ORI x7, x5, 255") = .ok (.ori 7 5 255) := by decide
theorem test_decode_xori : decode (text "XORI x7, x5, -1") = .ok (.xori 7 5 (-1)) := by decide
theorem test_decode_slli : decode (text "SLLI x7, x5, 31") = .ok (.slli 7 5 31) := by decide
theorem test_decode_slri : decode (text "SLRI x7, x5, 2") = .ok (.slri 7 5 2) := by decide
theorem test_decode_jalr : decode (text "JALR x5, x1, -2") = .ok (.jalr 5 1 (-2)) := by decide
theorem test_decode_jal : decode (text "JAL x1, 5") = .ok (.jal 1 (text "5")) := by decide
theorem test_decode_lw : decode (text "LW t2, 448(t0)") = .ok (.lw 7 448 5) := by decide
theorem test_decode_sw : decode (text "SW x5, -4(x2)") = .ok (.sw 5 (-4) 2) := by decide
/-- V-DEC-23: a label named like an operator. -/
theorem test_decode_label : decode (text "ADD:") = .ok (.labelLine (text "ADD")) := by decide
theorem test_decode_empty : decode [] = .ok .emptyLine := by decide

/-- V-DEC-4, V-DEC-9, V-DEC-10, V-DEC-12, V-DEC-13, V-DEC-20. -/
theorem test_decode_shape :
    decode (text "LI x5 , 5") = .raise (.shapeMismatch (text "OP RD, IMM")) ∧
    decode (text "ADD x1, x2, -5") = .raise (.shapeMismatch (text "OP RD, RS1, RS2")) ∧
    decode (text "ADD x1, x2") = .raise (.shapeMismatch (text "OP RD, RS1, RS2")) ∧
    decode (text "ADD x1, x2, x3, x4") = .raise (.shapeMismatch (text "OP RD, RS1, RS2")) ∧
    decode (text "ADD") = .raise (.shapeMismatch (text "OP RD, RS1, RS2")) ∧
    decode (text "ADD x1, x1, x1 # c") = .raise (.shapeMismatch (text "OP RD, RS1, RS2")) := by decide
/-- V-DEC-24, V-DEC-31, V-DEC-33, V-DEC-34, V-DEC-40, V-DEC-41. -/
theorem test_decode_shape' :
    decode (text "ADDI x1, x1, x2") = .raise (.shapeMismatch (text "OP RD, RS1, IMM")) ∧
    decode (text "JALR x5, x1, lab") = .raise (.shapeMismatch (text "OP RD, RS1, IMM")) ∧
    decode (text "LW x1, (x0)") = .raise (.shapeMismatch (text "OP RD, OFFS(RA)")) ∧
    decode (text "LW x1, 0 (x0)") = .raise (.shapeMismatch (text "OP RD, OFFS(RA)")) ∧
    decode (text "JAL ra, -4") = .raise (.shapeMismatch (text "OP RD, LABEL")) ∧
    decode (text "JAL ra, loop:") = .raise (.shapeMismatch (text "OP RD, LABEL")) := by decide
/-- V-DEC-5, V-DEC-16, V-DEC-18, V-DEC-19, V-DEC-21, V-DEC-22. -/
theorem test_decode_operator :
    decode (text "li x5, 1") = .raise (.unknownOperator (text "li")) ∧
    decode (text "SRL x1, x2, x3") = .raise (.unknownOperator (text "SRL")) ∧
    decode (text "NOP") = .raise (.unknownOperator (text "NOP")) ∧
    decode (text "# comment") = .raise (.unknownOperator (text "#")) ∧
    decode (text "loop: ADD x1, x1, x1") = .raise (.unknownOperator (text "loop:")) ∧
    decode (text "loop :") = .raise (.unknownOperator (text "loop")) := by decide
/-- V-DEC-6, V-DEC-8, V-DEC-14, V-DEC-15, V-DEC-29, V-DEC-38, V-DEC-42, V-MV-5. -/
theorem test_decode_register :
    decode (text "LI X5, 1") = .raise (.unknownRegister (text "X5")) ∧
    decode (text "ADD x1, x2, 5") = .raise (.unknownRegister (text "5")) ∧
    decode (text "ADD x1, x28, x29") = .raise (.unknownRegister (text "x28")) ∧
    decode (text "ADD t3, x1, x1") = .raise (.unknownRegister (text "t3")) ∧
    decode (text "ADDI q1, x1, 99999999999") = .raise (.unknownRegister (text "q1")) ∧
    decode (text "SW x28, 0(x0)") = .raise (.unknownRegister (text "x28")) ∧
    decode (text "JAL q1, nowhere") = .raise (.unknownRegister (text "q1")) ∧
    decode (text "MV x6, -5") = .raise (.unknownRegister (text "-5")) := by decide
/-- V-LI-4, V-LI-5, V-LI-6, V-LI-10, V-DEC-28, V-DEC-37. -/
theorem test_decode_immediate :
    decode (text "LI x5, 2147483648") = .raise (.invalidImmediate (text "2147483648")) ∧
    decode (text "LI x5, -2147483649") = .raise (.invalidImmediate (text "-2147483649")) ∧
    decode (text "LI x5, x6") = .raise (.invalidImmediate (text "x6")) ∧
    decode (text "LI x5, 0x10") = .raise (.invalidImmediate (text "0x10")) ∧
    decode (text "ADDI x1, x1, 99999999999") = .raise (.invalidImmediate (text "99999999999")) ∧
    decode (text "LW x1, 99999999999(x0)") = .raise (.invalidImmediate (text "99999999999")) := by decide
/-- The register-name vectors after V-DEC-42. -/
theorem test_register_names :
    regResolve (text "x27") = some 27 ∧ regResolve (text "fp") = some 8 ∧ regResolve (text "s4") = some 29 ∧
    regResolve (text "x28") = none ∧ regResolve (text "x01") = none ∧ regResolve (text "X1") = none ∧
    regResolve (text "t3") = none ∧ regResolve (text "s12") = none ∧ regResolve (text "pc") = none ∧
    regResolve [] = none := by decide
/-- R203, R61: the whitespace characters are trimmed at both ends and nowhere else. -/
theorem test_trim : trim (text " \t MV x6,  x5 \r\n") = text "MV x6,  x5" := by decide

/-! ### Encoding -/

theorem test_encode :
    encode (.sw 5 (-4) 2) = text "SW x5, -4(x2)" ∧ encode (.add 7 5 29) = text "ADD x7, x5, s4" ∧
    encode (.jal 1 (text "double")) = text "JAL x1, double" ∧ encode (.labelLine (text "end")) = text "end:" ∧
    encode (.li 0 (-2147483648)) = text "LI x0, -2147483648" := by decide

/-! ### The opcode table's numbers (R82) -/

theorem test_table_mv : decodeTableWord 16 0x4D56 = some (.mv 0 0) := by decide
theorem test_table_xori : decodeTableWord 32 0x584F5249 = some (.xori 0 0 0) := by decide
theorem test_table_jal : decodeTableWord 24 0x4A414C = some (.jal 0 (text "0")) := by decide
theorem test_table_empty : decodeTableWord 8 0 = some .emptyLine := by decide
theorem test_table_none : decodeTableWord 24 0x4E4F50 = none := by decide
/-- The next step runs the placed instruction: `JAL`'s label is the line after it. -/
theorem test_fetch_word : pcAfter (State.reset.withFetchWord 24 0x4A414C) = some 1 := by decide

/-! ### One step: vectors of part 2 -/

theorem test_step_mv : regAfter (sessionAt 0 "MV s4, x5" [(5, 0xDEADBEEF), (20, 7)]) 29 = some 0xDEADBEEF := by decide
theorem test_step_mv_zero : regAfter (sessionAt 0 "MV x0, x5" [(5, 0xDEADBEEF)]) 0 = some 0 := by decide
theorem test_step_li : regAfter (sessionAt 0 "LI x5, -12" []) 5 = some 0xFFFFFFF4 := by decide
theorem test_step_li_pc : pcAfter (sessionAt 3 "LI zero, 5" []) = some 4 := by decide
theorem test_step_add : regAfter (sessionAt 0 "ADD x7, x5, x6" [(5, 0xFFFFFFFF), (6, 1), (7, 9)]) 7 = some 0 := by decide
theorem test_step_add_same : regAfter (sessionAt 0 "ADD x5, x5, x5" [(5, 3)]) 5 = some 6 := by decide
theorem test_step_sub : regAfter (sessionAt 0 "SUB x7, x5, x6" [(5, 3), (6, 10)]) 7 = some 0xFFFFFFF9 := by decide
theorem test_step_mul : regAfter (sessionAt 0 "MUL x7, x5, x6" [(5, 0x12345678), (6, 0x10)]) 7 = some 0x23456780 := by decide
theorem test_step_mul_neg : regAfter (sessionAt 0 "MUL x7, x5, x6" [(5, 0xFFFFFFFE), (6, 3)]) 7 = some 0xFFFFFFFA := by decide
theorem test_step_and : regAfter (sessionAt 0 "AND x7, x5, x6" [(5, 0xF0F0F0F0), (6, 0x0FF00FF0)]) 7 = some 0x00F000F0 := by decide
theorem test_step_or : regAfter (sessionAt 0 "OR x7, x5, x6" [(5, 0xF0F0F0F0), (6, 0x0FF00FF0)]) 7 = some 0xFFF0FFF0 := by decide
theorem test_step_xor : regAfter (sessionAt 0 "XOR x7, x5, x6" [(5, 0xF0F0F0F0), (6, 0x0FF00FF0)]) 7 = some 0xFF00FF00 := by decide
theorem test_step_sll : regAfter (sessionAt 0 "SLL x7, x5, x6" [(5, 0x80000001), (6, 1)]) 7 = some 2 := by decide
theorem test_step_sll_wide : regAfter (sessionAt 0 "SLL x7, x5, x6" [(5, 0x80000001), (6, 33)]) 7 = some 2 := by decide
theorem test_step_slr : regAfter (sessionAt 0 "SLR x7, x5, x6" [(5, 0x80000001), (6, 1)]) 7 = some 0x40000000 := by decide
theorem test_step_slr_wide : regAfter (sessionAt 0 "SLR x7, x5, x6" [(5, 0x80000001), (6, 0xFFFFFFFF)]) 7 = some 1 := by decide
theorem test_step_addi : regAfter (sessionAt 0 "ADDI x7, x5, 2147483647" [(5, 1)]) 7 = some 0x80000000 := by decide
theorem test_step_subi : regAfter (sessionAt 0 "SUBI x7, x5, -3" [(5, 5)]) 7 = some 8 := by decide
theorem test_step_andi : regAfter (sessionAt 0 "ANDI x7, x5, -16" [(5, 0x12345678)]) 7 = some 0x12345670 := by decide
theorem test_step_ori : regAfter (sessionAt 0 "ORI x7, x5, 255" [(5, 0x12345678)]) 7 = some 0x123456FF := by decide
theorem test_step_xori : regAfter (sessionAt 0 "XORI x7, x5, -1" [(5, 0x12345678)]) 7 = some 0xEDCBA987 := by decide
theorem test_step_slli : regAfter (sessionAt 0 "SLLI x7, x5, 31" [(5, 3)]) 7 = some 0x80000000 := by decide
theorem test_step_slli_neg : regAfter (sessionAt 0 "SLLI x7, x5, -1" [(5, 3)]) 7 = some 0x80000000 := by decide
theorem test_step_slri : regAfter (sessionAt 0 "SLRI x7, x5, 31" [(5, 0xC0000000)]) 7 = some 1 := by decide
theorem test_step_slri_neg : regAfter (sessionAt 0 "SLRI x7, x5, -31" [(5, 0xC0000000)]) 7 = some 0x60000000 := by decide

/-- V-JALR-1. -/
theorem test_step_jalr :
    regAfter (sessionAt 3 "JALR x5, x1, -2" [(1, 10)]) 5 = some 4 ∧
    pcAfter (sessionAt 3 "JALR x5, x1, -2" [(1, 10)]) = some 8 := by decide
/-- V-JALR-4: the target is neither masked nor checked. -/
theorem test_step_jalr_far : pcAfter (sessionAt 3 "JALR x5, x0, -1" []) = some 0xFFFFFFFF := by decide

/-- A session with the lines of a program. -/
def session (pc : Nat) (lines : List String) : State :=
  { setProgram (lines.map text) State.reset with pc := BitVec.ofNat 32 pc }

/-- V-JAL-4: label `5` is a name, not a line index. -/
theorem test_step_jal :
    pcAfter (session 3 ["5:", "", "", "JAL x1, 5"]) = some 0 ∧
    regAfter (session 3 ["5:", "", "", "JAL x1, 5"]) 1 = some 4 := by decide
/-- V-JAL-5: names are compared with their case. -/
theorem test_step_jal_absent : faultOf (session 1 ["Loop:", "JAL x1, loop"]) = some (.unresolvedLabel (text "loop")) := by decide

/-- V-SW-2: the effective address wraps to 4, block 0 word 1. -/
theorem test_step_sw : wordAfter (sessionAt 0 "SW x5, 8(x2)" [(5, 0xCAFEBABE), (2, 0xFFFFFFFC)]) 0 1 = some 0xCAFEBABE := by decide
/-- V-SW-4, V-SW-5, V-SW-7. -/
theorem test_step_sw_edges :
    wordAfter (sessionAt 0 "SW x5, 0(x2)" [(5, 0xCAFEBABE), (2, 508)]) 7 15 = some 0xCAFEBABE ∧
    faultOf (sessionAt 0 "SW x5, 0(x2)" [(2, 512)]) = some (.outOfBounds 0x200) ∧
    faultOf (sessionAt 0 "SW x5, 0(x2)" [(2, 513)]) = some (.unalignedAccess 0x201) := by decide
/-- V-LW-3: the base is read before the destination is written. -/
theorem test_step_lw :
    regAfter { sessionAt 0 "LW x2, 0(x2)" [(2, 8)] with mem := Memory.setWordAt [] 0 2 0x99 } 2 = some 0x99 := by decide
/-- V-LW-5, V-LW-7, V-LW-8. -/
theorem test_step_lw_faults :
    faultOf (sessionAt 0 "LW x6, 0(x2)" [(2, 3)]) = some (.unalignedAccess 3) ∧
    faultOf (sessionAt 0 "LW x6, -4(x0)" []) = some (.outOfBounds 0xFFFFFFFC) ∧
    faultOf (sessionAt 0 "LW x6, -3(x0)" []) = some (.unalignedAccess 0xFFFFFFFD) := by decide
/-- V-NOP-1. -/
theorem test_step_label : pcAfter (sessionAt 2 "loop:" [(5, 1)]) = some 3 := by decide
/-- V-NOP-2. -/
theorem test_step_empty : pcAfter (sessionAt 2 "" [(5, 1)]) = some 3 := by decide
/-- The fault record of R193 and its vectors: V-SW-3 at line 0, V-RUN-8 with no line. -/
theorem test_fault_record :
    (match step (sessionAt 0 "SW x5, 0(x2)" [(2, 2)]) with
      | .next t => readError t
      | .fault _ | .refused _ => none) = some ⟨.unalignedAccess 2, 0, some (text "SW x5, 0(x2)")⟩ ∧
    (match step State.reset with
      | .next t => readError t
      | .fault _ | .refused _ => none) = some ⟨.endOfProgram, 0, none⟩ := by decide

/-- The table of R180. -/
theorem test_fault_ordinals :
    [FaultCause.unknownRegister [], .invalidImmediate [], .shapeMismatch [], .unknownOperator [], .unresolvedLabel [],
      .unalignedAccess 0, .outOfBounds 0, .endOfProgram].map faultOrdinal = [0, 1, 2, 3, 4, 5, 6, 7] := by decide

/-! ### Memory, labels and the host operations -/

/-- Writing the value an unlisted byte reads as removes the entries (V-SW-9). -/
theorem test_memory_canonical : Memory.setWordAt (Memory.setWordAt [] 0 4 0x55) 0 4 0 = [] := by decide
/-- Addresses 60, 64, 252 and 508 (after V-LW-8). -/
theorem test_address_split :
    blockOf 60 = 0 ∧ offsetOf 60 = 15 ∧ blockOf 64 = 1 ∧ offsetOf 64 = 0 ∧ blockOf 252 = 3 ∧ offsetOf 252 = 15 ∧
    blockOf 508 = 7 ∧ offsetOf 508 = 15 ∧ blockOf 512 = 8 := by decide
/-- V-SCAN-2. -/
theorem test_scan :
    scan (["a:", "", "b:", "ADD x1, x1, x1", "c :", "d: e:"].map text) = [(text "a", 0), (text "b", 2)] := by decide
/-- V-SCAN-3. -/
theorem test_duplicate : refusedLabel (["l:", "JAL x0, l", "l:"].map text) = some (text "l") := by decide
/-- R205, V-RUN-9: a breakpoint on the first line of a batch does not stop it; one on a later line does. -/
theorem test_breakpoints :
    (match runAmount 5 { session 0 ["", "", ""] with breakpoints := [0, 2] } with
      | .next (b, t) => some (b, t.pc)
      | .fault _ | .refused _ => none) = some (true, 2) := by decide
/-- V-JAL-3: lines 0, 1, 0, 1, 0. -/
theorem test_run_amount :
    (match runAmount 5 (session 0 ["back:", "JAL x0, back"]) with
      | .next (b, t) => some (b, t.pc)
      | .fault _ | .refused _ => none) = some (true, 1) := by decide
theorem test_breakpoint_set :
    (addBreakpoint 5 (addBreakpoint 1 (addBreakpoint 5 State.reset))).breakpoints = [1, 5] ∧
    (removeBreakpoint 1 (addBreakpoint 5 (addBreakpoint 1 State.reset))).breakpoints = [5] := by decide

/-! ### Witnesses: for each statement with hypotheses, states and operands that meet them, clause by clause -/

/-- A session with a line of every kind the witnesses need, two listed memory bytes, and breakpoints on a line of the program
and on one past its end. -/
def demo (pc : Nat) : State :=
  { session pc ["LI x5, 64", "SW x5, 0(x5)", "loop:", "LW x6, 2(x5)", "JAL x1, loop", "", "NOP", "JAL x1, nowhere",
      "JALR x5, x5, 0"] with
    mem := [(4, 7), (508, 1)], breakpoints := [2, 5, 20] }

/-- A session that has taken a fault. -/
def ended : State := raiseFault .endOfProgram (demo 9)

theorem demo_inv (pc : Nat) : SessionInv (demo pc) :=
  { memory := (by decide : Memory.wf (demo 0).mem)
    zero := (by decide : (demo 0).readReg 0 = 0)
    trimmed := (by decide : ∀ line ∈ (demo 0).lines, isTrimmed line = true)
    lineCount := (by decide : (demo 0).lines.length < 2 ^ 32)
    labels := rfl
    breakpoints := (by decide : (demo 0).breakpoints.Pairwise fun a b => a.toNat < b.toNat)
    tags := (by decide : ∀ b : Fin 8, (demo 0).tags[b] = CoherenceTag.invalid)
    error := .inl ⟨rfl, rfl⟩ }

theorem completes {s : State} (h : pcAfter s ≠ none) : ∃ t, step s = .next t ∧ t.status = .ready := by
  unfold pcAfter at h
  split at h
  · next t ht => exact ⟨t, ht, by by_contra hn; simp [hn] at h⟩
  · exact absurd rfl h
  · exact absurd rfl h

theorem faults {s : State} {f : FaultCause} (h : faultOf s = some f) :
    ∃ t, step s = .next t ∧ t.status ≠ .ready := by
  unfold faultOf at h
  split at h
  · next t ht =>
    refine ⟨t, ht, fun hn => ?_⟩
    simp [hn] at h
  · cases h
  · cases h

/-- The success flag and the `pc` a batch ends with. -/
def batchEnd (n : Nat) (s : State) : Option (Bool × Word) :=
  match runAmount n s with
  | .next (b, t) => some (b, t.pc)
  | .fault _ | .refused _ => none

theorem batches {n : Nat} {s : State} {b : Bool} {p : Word} (h : batchEnd n s = some (b, p)) :
    ∃ t, runAmount n s = .next (b, t) ∧ t.pc = p := by
  unfold batchEnd at h
  split at h
  · next b' t ht => cases h; exact ⟨t, ht, rfl⟩
  · cases h
  · cases h

/-- A program of no lines loads whatever the capacity is. -/
theorem loads_nothing (s : State) : loadProgram [] s = .next (setProgram [] s) := by
  simp [loadProgram, refusedLabel, dupLabel, duplicatedLabel, labelNames, firstRepeated]

/-- The line of a session of one line is the line at its `pc`. -/
theorem atLine (l : String) : AtLine (sessionAt 0 l []) (text l) := ⟨rfl, rfl⟩

theorem witness_EveryStepKeepsTheInvariant :
    (∃ s t, SessionInv s ∧ step s = .next t ∧ t.status = .ready) ∧
    (∃ s t, SessionInv s ∧ step s = .next t ∧ t.status ≠ .ready) := by
  obtain ⟨t, h1, h2⟩ := completes (s := demo 1) (by decide)
  obtain ⟨u, h3, h4⟩ := faults (s := demo 3) (f := .unalignedAccess 2) (by decide)
  exact ⟨⟨_, t, demo_inv 1, h1, h2⟩, ⟨_, u, demo_inv 3, h3, h4⟩⟩

theorem witness_HostOperationsKeepTheInvariant :
    ∃ s t u, SessionInv s ∧ runAmount 5 s = .next (true, t) ∧ loadProgram [] s = .next u := by
  obtain ⟨t, h, _⟩ := batches (n := 5) (s := demo 0) (b := true) (p := 2) (by decide)
  exact ⟨_, t, _, demo_inv 0, h, loads_nothing _⟩

theorem witness_AlignmentThenBoundsDecideAnAccess :
    ((2 : Word).toNat % 4 ≠ 0 ∧ (513 : Word).toNat % 4 ≠ 0) ∧
    ((512 : Word).toNat % 4 = 0 ∧ 512 ≤ (512 : Word).toNat ∧ (0xFFFFFFFC : Word).toNat % 4 = 0) ∧
    LegalAddress 0 ∧ LegalAddress 508 ∧ Memory.wf [(4, 7), (508, 1)] := by
  unfold LegalAddress; decide

theorem witness_AWriteChangesExactlyOneWord :
    Memory.wf [(4, 7), (508, 1)] ∧ ((509 : Word).toNat % 4 ≠ 0 ∧ (509 : Word).toNat < 512) ∧
    ((512 : Word).toNat % 4 = 0 ∧ 512 ≤ (512 : Word).toNat) ∧
    ((513 : Word).toNat % 4 ≠ 0 ∧ 512 ≤ (513 : Word).toNat) ∧ LegalAddress 4 ∧ (508 : Word) ≠ 4 := by
  unfold LegalAddress; decide

theorem witness_ZeroRegisterIsErasedAfterEveryLine :
    (∃ t, step (demo 0) = .next t ∧ t.status = .ready) ∧ (∃ t, step (demo 6) = .next t ∧ t.status ≠ .ready) ∧
    memRead (demo 0).mem (effectiveAddress (demo 0) 513 0) = .raise (.unalignedAccess 513) ∧ (5 : RegIx) ≠ 0 ∧
    labelLookup (demo 4).labels (text "loop") = some 2 :=
  ⟨completes (by decide), faults (f := .unknownOperator (text "NOP")) (by decide), by decide, by decide, by decide⟩

theorem witness_FaultsAreTakenBeforeAnyChange : ∃ t, step (demo 7) = .next t ∧ t.status ≠ .ready :=
  faults (f := .unresolvedLabel (text "nowhere")) (by decide)

theorem witness_FaultRecordNamesCauseLineAndText :
    (∃ t, step (demo 3) = .next t ∧ t.status ≠ .ready) ∧ ∃ t, step (demo 9) = .next t ∧ t.status ≠ .ready :=
  ⟨faults (f := .unalignedAccess 2) (by decide), faults (f := .endOfProgram) (by decide)⟩

theorem witness_AReadySessionAlwaysSteps : (demo 0).status = .ready := rfl

theorem witness_AHaltedSessionHasNoStep : ended.status = .halted ⟨.endOfProgram, 9, none⟩ := by decide

theorem witness_OnlyStoresChangeMemory :
    (∃ t, step (demo 0) = .next t) ∧
    ∀ line rs offs ra, (demo 0).lines[(demo 0).pc.toNat]? = some line → decode line ≠ .ok (.sw rs offs ra) := by
  obtain ⟨t, ht, _⟩ := completes (s := demo 0) (by decide)
  refine ⟨⟨t, ht⟩, fun line rs offs ra hl hd => ?_⟩
  have hd' : decode (text "LI x5, 64") = .ok (.li 5 64) := by decide
  rw [show (demo 0).lines[(demo 0).pc.toNat]? = some (text "LI x5, 64") from rfl] at hl
  rw [← Option.some.inj hl, hd'] at hd
  cases hd

theorem witness_ProgramIsSeparateFromMemory :
    (∃ t, step (demo 1) = .next t) ∧ ∃ t, runAmount 2 (demo 0) = .next (true, t) := by
  obtain ⟨t, ht, _⟩ := completes (s := demo 1) (by decide)
  obtain ⟨u, hu, _⟩ := batches (n := 2) (s := demo 0) (b := true) (p := 2) (by decide)
  exact ⟨⟨t, ht⟩, ⟨u, hu⟩⟩

theorem witness_TagsAreNeitherReadNorChanged :
    (∃ t, step (demo 1) = .next t) ∧ (∃ t, runAmount 2 (demo 0) = .next (true, t)) ∧
    ∃ t, loadProgram [] (demo 0) = .next t :=
  ⟨witness_ProgramIsSeparateFromMemory.1, witness_ProgramIsSeparateFromMemory.2, _, loads_nothing _⟩

theorem witness_UnnamedRegistersAreNeverReached :
    regResolve (text "x27") = some 27 ∧ regResolve (text "s4") = some 29 ∧ regResolve (text "x20") = some 20 ∧
    (∃ t, step (demo 1) = .next t) ∧ ∃ t, runAmount 2 (demo 0) = .next (true, t) :=
  ⟨by decide, by decide, by decide, witness_ProgramIsSeparateFromMemory.1, witness_ProgramIsSeparateFromMemory.2⟩

theorem witness_DecodeOfEncodeIsIdentity :
    (Instr.lw 29 (-2147483648) 27).wellFormed = true ∧ (Instr.jal 0 (text "_9aZ")).wellFormed = true := by decide

theorem witness_DecodedInstructionsAreWellFormed :
    decode (text "LW s4, -2147483648(x27)") = .ok (.lw 29 (-2147483648) 27) := by decide

theorem witness_EveryLineHasOneDecodeOutcome :
    matchLabel (text "loop:") = some (text "loop") ∧
    (text "NOP" ≠ [] ∧ matchLabel (text "NOP") = none ∧ ∀ m, operatorOf (text "NOP") ≠ spelling m) ∧
    (text "LW x1, (x0)" ≠ [] ∧ matchLabel (text "LW x1, (x0)") = none ∧ operatorOf (text "LW x1, (x0)") = spelling .lw ∧
      fieldsOf (shapeOf .lw) (text "LW x1, (x0)") = none) ∧
    (operatorOf (text "LW q, 4(x0)") = spelling .lw ∧
      fieldsOf (shapeOf .lw) (text "LW q, 4(x0)") = some [text "q", text "4", text "x0"]) := by
  refine ⟨by decide, ⟨by decide, by decide, fun m => ?_⟩, by decide, by decide⟩
  cases m <;> decide

theorem witness_TheFirstFailingFieldDecides :
    (operatorOf (text "ADD q, x1, x28") = spelling .add ∧ shapeOf .add = .rrr ∧
      matchRrr (text "ADD q, x1, x28") = some ⟨text "ADD", text "q", text "x1", text "x28"⟩ ∧
      regResolve (text "q") = none ∧ regResolve (text "x1") ≠ none ∧ regResolve (text "x28") = none) ∧
    (operatorOf (text "ADDI q, x1, 2147483648") = spelling .addi ∧ shapeOf .addi = .rri ∧
      matchRri (text "ADDI q, x1, 2147483648") = some ⟨text "ADDI", text "q", text "x1", text "2147483648"⟩ ∧
      parseImm (text "2147483648") = none) ∧
    (operatorOf (text "SW q, -1(x28)") = spelling .sw ∧ shapeOf .sw = .rob ∧
      matchRob (text "SW q, -1(x28)") = some ⟨text "SW", text "q", text "-1", text "x28"⟩ ∧
      parseImm (text "-1") ≠ none) := by decide

/-- The second and third clauses of each pattern: the first field resolves, then the first two. -/
theorem witness_TheFirstFailingFieldDecides' :
    matchRrr (text "ADD x1, q, x28") = some ⟨text "ADD", text "x1", text "q", text "x28"⟩ ∧
    matchRrr (text "ADD x1, x1, x28") = some ⟨text "ADD", text "x1", text "x1", text "x28"⟩ ∧
    matchRri (text "ADDI x1, q, 5") = some ⟨text "ADDI", text "x1", text "q", text "5"⟩ ∧
    matchRri (text "ADDI x1, x1, 2147483648") = some ⟨text "ADDI", text "x1", text "x1", text "2147483648"⟩ ∧
    matchRob (text "SW x1, 2147483648(q)") = some ⟨text "SW", text "x1", text "2147483648", text "q"⟩ ∧
    matchRob (text "SW x1, -1(q)") = some ⟨text "SW", text "x1", text "-1", text "q"⟩ := by decide

theorem witness_PatternsOverlapAsRuled :
    matchRl (text "JAL ra, loop") = some ⟨text "JAL", text "ra", text "loop"⟩ ∧
    (matchRri (text "ADD x1, x2, 5") = some ⟨text "ADD", text "x1", text "x2", text "5"⟩ ∧
      (text "5").head? ≠ some (ch '-')) ∧
    matchLabel (text "ADD:") = some (text "ADD") := by decide

/-- Each side of each equivalence is met. -/
theorem witness_PatternsMatchExactlyTheirForms :
    matchLabel (text "a:") = some (text "a") ∧
    matchTwoOp (text "LI  x5,-1") = some ⟨text "LI", text "x5", text "-1"⟩ ∧
    matchRl (text "JAL x1,  b") = some ⟨text "JAL", text "x1", text "b"⟩ ∧
    matchRrr (text "ADD x1,x2, x3") = some ⟨text "ADD", text "x1", text "x2", text "x3"⟩ ∧
    matchRri (text "ADDI x1,x2,-3") = some ⟨text "ADDI", text "x1", text "x2", text "-3"⟩ ∧
    matchRob (text "LW x1,-4(x2)") = some ⟨text "LW", text "x1", text "-4", text "x2"⟩ := by decide

/-- R71: both ends of the range and the first name past it. -/
theorem witness_NumericNamesResolveToTheirNumber :
    regResolve (ch 'x' :: natText 0) = some 0 ∧ regResolve (ch 'x' :: natText 27) = some 27 ∧
    regResolve (ch 'x' :: natText 28) = none := by decide

theorem witness_ImmediateLiteralsAreSignedDecimals :
    parseImm (text "-2147483648") = some (-2147483648) ∧ parseImm (text "2147483647") = some 2147483647 ∧
    parseImm (text "2147483648") = none ∧ parseImm (text "-2147483649") = none ∧
    (text "07" ≠ [] ∧ ∀ d ∈ text "07", isDigit d = true) ∧ parseImm (text "-007") = some (-7) := by decide

theorem witness_StepRunsTheDecodedInstruction :
    (demo 1).status = .ready ∧
    ((demo 1).lines[(demo 1).pc.toNat]? = some (text "SW x5, 0(x5)") ∧ decode (text "SW x5, 0(x5)") = .ok (.sw 5 0 5)) ∧
    ((demo 6).lines[(demo 6).pc.toNat]? = some (text "NOP") ∧
      decode (text "NOP") = .raise (.unknownOperator (text "NOP"))) ∧
    (demo 9).lines[(demo 9).pc.toNat]? = none := by decide

theorem witness_ArithmeticWrapsModuloTwoToThe32 :
    (0 : RegIx) ≠ 5 ∧ labelLookup (demo 4).labels (text "loop") = some 2 := by decide

theorem witness_JalLinksAndJumpsToItsLabel :
    labelLookup (demo 4).labels (text "loop") = some 2 ∧ labelLookup (demo 4).labels (text "nowhere") = none := by decide

theorem witness_LoadWordReadsTheAddressedWord :
    LegalAddress (effectiveAddress (demo 0) 0 0) ∧ LegalAddress (effectiveAddress (demo 0) 508 5) := by
  unfold LegalAddress; decide

theorem witness_StoreWordWritesOnlyTheAddressedWord :
    Memory.wf (demo 0).mem ∧ LegalAddress (effectiveAddress (demo 0) 0 0) ∧
    LegalAddress (effectiveAddress (demo 0) 508 5) := by
  unfold LegalAddress; decide

theorem witness_IllegalAccessesFaultAndChangeNothing :
    (effectiveAddress (demo 0) 511 0).toNat % 4 ≠ 0 ∧ (effectiveAddress (demo 0) 513 0).toNat % 4 ≠ 0 ∧
    (effectiveAddress (demo 0) 512 0).toNat % 4 = 0 ∧ 512 ≤ (effectiveAddress (demo 0) 512 0).toNat := by decide

theorem witness_StoreThenLoadReturnsTheStoredValue :
    Memory.wf (demo 0).mem ∧ LegalAddress (effectiveAddress (demo 0) 508 0) ∧
    (match exec (.sw 0 508 0) (demo 0) with
      | .next t => some (effectiveAddress t 508 5)
      | .fault _ | .refused _ => none) = some (effectiveAddress (demo 0) 508 0) := by
  unfold LegalAddress; decide

theorem witness_NoOpLinesOnlyAdvance :
    AtLine (sessionAt 2 "" []) (text "") ∧ text "" = [] ∧
    AtLine (sessionAt 2 "loop:" []) (text "loop:") ∧ matchLabel (text "loop:") = some (text "loop") := by
  unfold AtLine; decide

/-- For every operator of the family: a line that is not `RRR`, one whose fields resolve, and one with a field that does not. -/
theorem witness_RegisterRegisterLinesFollowTheirRules :
    ∀ op ∈ ["ADD", "SUB", "MUL", "AND", "OR", "XOR", "SLL", "SLR"],
      (operatorOf (text (op ++ " x1")) = text op ∧ matchRrr (text (op ++ " x1")) = none) ∧
      (operatorOf (text (op ++ " x0, x1, s4")) = text op ∧
        matchRrr (text (op ++ " x0, x1, s4")) = some ⟨text op, text "x0", text "x1", text "s4"⟩ ∧
        regResolve (text "x0") = some 0 ∧ regResolve (text "x1") = some 1 ∧ regResolve (text "s4") = some 29) ∧
      (operatorOf (text (op ++ " x0, x1, x28")) = text op ∧
        matchRrr (text (op ++ " x0, x1, x28")) = some ⟨text op, text "x0", text "x1", text "x28"⟩ ∧
        regResolve (text "x28") = none) := by decide

/-- For every operator of the family: a line that is not `RRI`, one whose fields resolve, and two with a field that does not. -/
theorem witness_RegisterImmediateLinesFollowTheirRules :
    ∀ op ∈ ["ADDI", "SUBI", "ANDI", "ORI", "XORI", "SLLI", "SLRI", "JALR"],
      (operatorOf (text (op ++ " x1")) = text op ∧ matchRri (text (op ++ " x1")) = none) ∧
      (operatorOf (text (op ++ " x1, x1, -1")) = text op ∧
        matchRri (text (op ++ " x1, x1, -1")) = some ⟨text op, text "x1", text "x1", text "-1"⟩ ∧
        parseImm (text "-1") = some (-1)) ∧
      (matchRri (text (op ++ " x1, q, 0")) = some ⟨text op, text "x1", text "q", text "0"⟩ ∧ regResolve (text "q") = none) ∧
      (matchRri (text (op ++ " x1, x2, 2147483648")) = some ⟨text op, text "x1", text "x2", text "2147483648"⟩ ∧
        parseImm (text "2147483648") = none) := by decide

/-- The lines of the two families above stand at the `pc` of a `Ready` session (with `atLine`, for every line). -/
theorem witness_ShiftLinesFollowTheirRules :
    AtLine (sessionAt 0 "SLL x0, x1, s4" []) (text "SLL x0, x1, s4") ∧
    AtLine (sessionAt 0 "SLRI x1, x1, -1" []) (text "SLRI x1, x1, -1") ∧
    operatorOf (text "SLL x0, x1, s4") = text "SLL" ∧ operatorOf (text "SLRI x1, x1, -1") = text "SLRI" :=
  ⟨atLine _, atLine _, by decide, by decide⟩

theorem witness_MoveLinesFollowTheirRules :
    AtLine (sessionAt 0 "MV x0, s4" []) (text "MV x0, s4") ∧
    (operatorOf (text "MV x0, s4") = text "MV" ∧ matchTwoOp (text "MV x0, s4") = some ⟨text "MV", text "x0", text "s4"⟩ ∧
      regResolve (text "x0") = some 0 ∧ regResolve (text "s4") = some 29) ∧
    matchTwoOp (text "MV x0") = none ∧
    matchTwoOp (text "MV x6, -5") = some ⟨text "MV", text "x6", text "-5"⟩ ∧ regResolve (text "-5") = none ∧
    (operatorOf (text "LI x5, -1") = text "LI" ∧ matchTwoOp (text "LI x5, -1") = some ⟨text "LI", text "x5", text "-1"⟩ ∧
      parseImm (text "-1") = some (-1)) ∧
    matchTwoOp (text "LI q, x6") = some ⟨text "LI", text "q", text "x6"⟩ ∧ regResolve (text "q") = none ∧
    parseImm (text "x6") = none :=
  ⟨atLine _, by decide⟩

theorem witness_JumpLinesFollowTheirRules :
    AtLine (demo 4) (text "JAL x1, loop") ∧ AtLine (demo 7) (text "JAL x1, nowhere") ∧
    AtLine (demo 8) (text "JALR x5, x5, 0") ∧
    (matchRl (text "JAL x1, loop") = some ⟨text "JAL", text "x1", text "loop"⟩ ∧
      labelLookup (demo 4).labels (text "loop") = some 2 ∧ labelLookup (demo 7).labels (text "nowhere") = none) ∧
    matchRl (text "JAL x1") = none ∧ matchRl (text "JAL q, a") = some ⟨text "JAL", text "q", text "a"⟩ ∧
    (operatorOf (text "JALR x5, x5, 0") = text "JALR" ∧
      matchRri (text "JALR x5, x5, 0") = some ⟨text "JALR", text "x5", text "x5", text "0"⟩) ∧
    matchRri (text "JALR x5, x1, 0") = some ⟨text "JALR", text "x5", text "x1", text "0"⟩ := by
  unfold AtLine; decide

theorem witness_LoadAndStoreLinesFollowTheirRules :
    (AtLine (demo 1) (text "SW x5, 0(x5)") ∧ Memory.wf (demo 1).mem ∧ operatorOf (text "SW x5, 0(x5)") = text "SW" ∧
      matchRob (text "SW x5, 0(x5)") = some ⟨text "SW", text "x5", text "0", text "x5"⟩ ∧
      LegalAddress ((demo 1).readReg 5 + BitVec.ofInt 32 0)) ∧
    (AtLine (demo 3) (text "LW x6, 2(x5)") ∧ operatorOf (text "LW x6, 2(x5)") = text "LW" ∧
      ((demo 3).readReg 5 + BitVec.ofInt 32 2).toNat % 4 ≠ 0 ∧ LegalAddress ((demo 3).readReg 5 + BitVec.ofInt 32 508) ∧
      ((demo 3).readReg 5 + BitVec.ofInt 32 512).toNat = 512) ∧
    matchRob (text "LW x1, x2") = none ∧ matchRob (text "LW q, 4(x0)") = some ⟨text "LW", text "q", text "4", text "x0"⟩ ∧
    (matchRob (text "LW x1, 2147483648(x28)") = some ⟨text "LW", text "x1", text "2147483648", text "x28"⟩ ∧
      parseImm (text "2147483648") = none) ∧
    (matchRob (text "LW x1, 0(x28)") = some ⟨text "LW", text "x1", text "0", text "x28"⟩ ∧ regResolve (text "x28") = none) := by
  unfold AtLine LegalAddress; decide

theorem witness_UnknownOperatorLinesFault :
    AtLine (demo 6) (text "NOP") ∧ text "NOP" ≠ [] ∧ matchLabel (text "NOP") = none ∧
    ∀ m, operatorOf (text "NOP") ≠ spelling m :=
  ⟨⟨rfl, rfl⟩, by decide, by decide, fun m => by cases m <;> decide⟩

theorem witness_StepIsABatchOfOne :
    (demo 9).status = .ready ∧ (demo 9).lines.length ≤ (demo 9).pc.toNat ∧
    (demo 2).lines[(demo 2).pc.toNat]? = some (text "loop:") ∧ (demo 2).pc ∈ (demo 2).breakpoints ∧
    ∃ t, step (demo 2) = .next t := by
  obtain ⟨t, ht, _⟩ := completes (s := demo 2) (by decide)
  exact ⟨rfl, by decide, rfl, by decide, t, ht⟩

theorem witness_EndOfProgramIsRaisedByTheFirstAttempt :
    (demo 9).status = .ready ∧ (demo 9).lines.length ≤ (demo 9).pc.toNat ∧ (demo 8).pc.toNat < (demo 8).lines.length ∧
    (demo 3).pc.toNat < (demo 3).lines.length ∧ ∃ t r, step (demo 3) = .next t ∧ t.status = .halted r :=
  ⟨rfl, by decide, by decide, by decide, _, _, rfl, rfl⟩

theorem witness_BreakpointsStopABatchBeforeTheirLine :
    (∃ u, step (demo 1) = .next u ∧ u.status = .ready ∧ u.pc ∈ u.breakpoints ∧ u.pc.toNat < u.lines.length) ∧
    ((demo 5).pc ∈ (demo 5).breakpoints ∧ (demo 5).pc.toNat < (demo 5).lines.length) ∧
    (AtLine (demo 2) (text "loop:") ∧ AtLine (demo 6) (text "NOP")) ∧ ∃ t, runAmount 9 (demo 0) = .next (true, t) := by
  obtain ⟨t, ht, _⟩ := batches (n := 9) (s := demo 0) (b := true) (p := 2) (by decide)
  refine ⟨⟨_, rfl, rfl, ?_, ?_⟩, by decide, ⟨⟨rfl, rfl⟩, ⟨rfl, rfl⟩⟩, t, ht⟩ <;> decide

/-- Two steps that meet no breakpoint on the way, with breakpoints set; a completing and a faulting line that are none. -/
theorem witness_BatchesAreRepeatedSteps :
    (demo 0).status = .ready ∧ (∃ t, runAmount 9 (demo 0) = .next (true, t)) ∧ (demo 0).breakpoints ≠ [] ∧
    (∀ k u, 0 < k → k < 2 → runSteps k (demo 0) = .next u → u.pc ∉ (demo 0).breakpoints) ∧
    (∃ t, runSteps 2 (demo 0) = .next t ∧ t.status = .ready) ∧
    ((demo 1).pc ∉ (demo 1).breakpoints ∧ ∃ t, step (demo 1) = .next t ∧ t.status = .ready) ∧
    ((demo 6).pc ∉ (demo 6).breakpoints ∧ ∃ t, step (demo 6) = .next t ∧ t.status ≠ .ready) := by
  refine ⟨rfl, witness_BreakpointsStopABatchBeforeTheirLine.2.2.2, by decide, fun k u h0 h2 hu => ?_, ⟨_, rfl, rfl⟩,
    ⟨by decide, completes (by decide)⟩, by decide, faults (f := .unknownOperator (text "NOP")) (by decide)⟩
  obtain rfl : k = 1 := by omega
  have hp : (match runSteps 1 (demo 0) with
    | .next t => some t.pc
    | .fault _ | .refused _ => none) = some 1 := by decide
  rw [hu] at hp
  rw [Option.some.inj hp]
  decide

theorem witness_BatchesAlwaysAnswerAndTheFlagTellsTheStatus :
    (demo 3).status = .ready ∧ (demo 9).lines.length ≤ (demo 9).pc.toNat := ⟨rfl, by decide⟩

theorem witness_TheDefaultAdvanceIsOneLine :
    ((demo 0).lines.length < 2 ^ 32 ∧ ∃ t, step (demo 0) = .next t ∧ t.status = .ready) ∧
    (∀ line rd rs1 imm, (demo 0).lines[(demo 0).pc.toNat]? = some line → decode line ≠ .ok (.jalr rd rs1 imm)) ∧
    (∀ line rd label, (demo 0).lines[(demo 0).pc.toNat]? = some line → decode line ≠ .ok (.jal rd label)) ∧
    (∃ t, step (demo 6) = .next t ∧ t.status ≠ .ready) ∧
    ((∃ t, step (demo 4) = .next t ∧ t.status = .ready) ∧ (demo 4).lines[4]? = some (text "JAL x1, loop") ∧
      decode (text "JAL x1, loop") = .ok (.jal 1 (text "loop"))) ∧
    (∃ t, step (demo 8) = .next t ∧ t.status = .ready) ∧ (demo 8).lines[8]? = some (text "JALR x5, x5, 0") ∧
      decode (text "JALR x5, x5, 0") = .ok (.jalr 5 5 0) := by
  have hd' : decode (text "LI x5, 64") = .ok (.li 5 64) := by decide
  have hl' : (demo 0).lines[(demo 0).pc.toNat]? = some (text "LI x5, 64") := rfl
  refine ⟨⟨by decide, completes (by decide)⟩, fun line rd rs1 imm hl hd => ?_, fun line rd label hl hd => ?_,
    faults (f := .unknownOperator (text "NOP")) (by decide), ⟨completes (by decide), by decide, by decide⟩,
    completes (by decide), by decide, by decide⟩ <;>
  · rw [← Option.some.inj (hl'.symm.trans hl), hd'] at hd
    cases hd

theorem witness_ScanFindsEveryLabelLine :
    (demo 0).lines.length < 2 ^ 32 ∧ duplicatedLabel (demo 0).lines = none ∧
    (demo 0).lines[2]?.bind matchLabel = some (text "loop") := by decide

theorem witness_TableEntriesAreDefiningLinesWithUniqueNames :
    labelLookup (scan (demo 0).lines) (text "loop") = some 2 ∧
    ∃ line ∈ (["l:", "JAL x0, l", "l:"].map text), matchLabel line = some (text "l") :=
  ⟨by decide, _, List.mem_cons_self, by decide⟩

/-- A refused load (a duplicate label), and an accepted one: of no lines, since the capacity is an open constant. -/
theorem witness_ProgramLoadSetsLinesAndTableOnly :
    duplicatedLabel ((["l:", " l: "].map text).map trim) ≠ none ∧
    ([] : List Text).length ≤ Config.maxLines.val ∧ duplicatedLabel (([] : List Text).map trim) = none :=
  ⟨by decide, Nat.zero_le _, rfl⟩

theorem witness_BreakpointOperationsAreSetOperations :
    (demo 0).breakpoints.Pairwise (fun a b => a.toNat < b.toNat) ∧ (20 : Word) ∈ (demo 0).breakpoints ∧
    (3 : Word) ∉ (demo 0).breakpoints ∧ (∃ t, loadProgram [] (demo 0) = .next t) ∧
    (demo 0).lines.length ≤ (9 : Word).toNat ∧ ∃ t, runAmount 5 (demo 0) = .next (true, t) := by
  obtain ⟨t, ht, _⟩ := batches (n := 5) (s := demo 0) (b := true) (p := 2) (by decide)
  exact ⟨by decide, by decide, by decide, ⟨_, loads_nothing _⟩, by decide, t, ht⟩

theorem witness_NoOtherTwoPatternsOverlap :
    matchTwoOp (text "LI x5, 0x10") ≠ none ∧
    (matchTwoOp (text "LI x5, -1") = some ⟨text "LI", text "x5", text "-1"⟩ ∧ (text "-1").head? = some (ch '-')) ∧
    matchRl (text "JAL ra, loop") ≠ none ∧ matchRrr (text "ADD x1, x2, 5") ≠ none ∧ matchRri (text "ADD x1, x2, 5") ≠ none ∧
    matchRri (text "ADD x1, x2, -5") = some ⟨text "ADD", text "x1", text "x2", text "-5"⟩ ∧
    (text "-5").head? = some (ch '-') := by decide

end Sys2Proof.Tests
end

section
/-! PROOFS of the statements about the state (`10_state.md`).  First the laws they share: a step's ends, what its ends leave
alone, and updates of the state that no line notices. -/

namespace Sys2Proof.Machine

/-! ### The two ends of a step -/

/-- A step takes a fault, or its line decodes and ends as its instruction does (R100). -/
theorem step_ends {s t : State} (h : step s = .next t) :
    (∃ f, t = raiseFault f s) ∨
      ∃ line i, s.lines[s.pc.toNat]? = some line ∧ decode line = .ok i ∧ exec i s = .next t ∧ Ends i s t := by
  obtain ⟨_, ⟨_, ht⟩ | ⟨line, hl, ⟨f, _, ht⟩ | ⟨i, hi, he, hends⟩⟩⟩ := step_cases h
  · exact .inl ⟨_, ht⟩
  · exact .inl ⟨f, ht⟩
  · exact .inr ⟨line, i, hl, hi, he, hends⟩

/-- A step completes its line with register 0 at 0, or takes a fault and does nothing else (R22, R192). -/
theorem step_completes_or_faults {s t : State} (h : step s = .next t) :
    (t.status = .ready ∧ t.lastError = s.lastError ∧ t.readReg 0 = 0) ∨ ∃ f, t = raiseFault f s := by
  obtain ⟨hr, _⟩ := step_cases h
  rcases step_ends h with hf | ⟨_, _, _, _, _, hends⟩
  · exact .inr hf
  · exact hends.status_cases.imp_left fun ⟨hs, he, hz⟩ => ⟨hs.trans hr, he, hz⟩

/-- A step that leaves the session other than `Ready` took a fault. -/
theorem eq_raiseFault_of_not_ready {s t : State} (h : step s = .next t) (ht : t.status ≠ .ready) :
    ∃ f, t = raiseFault f s :=
  (step_completes_or_faults h).resolve_left fun hc => ht hc.1

/-- A step that leaves the session `Ready` performed its line's instruction. -/
theorem exec_of_ready {s t : State} (h : step s = .next t) (ht : t.status = .ready) :
    ∃ line i, s.lines[s.pc.toNat]? = some line ∧ decode line = .ok i ∧ exec i s = .next t ∧ Ends i s t := by
  refine (step_ends h).resolve_left ?_
  rintro ⟨f, rfl⟩
  simp at ht

/-- No step touches the tags, the program or the breakpoints (R30 to R33). -/
theorem step_keeps {s t : State} (h : step s = .next t) :
    t.tags = s.tags ∧ t.lines = s.lines ∧ t.labels = s.labels ∧ t.breakpoints = s.breakpoints := by
  rcases step_ends h with ⟨f, rfl⟩ | ⟨_, _, _, _, _, hends⟩
  · exact ⟨rfl, rfl, rfl, rfl⟩
  · exact hends.keeps

/-! ### What completing a line and taking a fault leave, in the terms of the statements -/

theorem takesFault_raiseFault (f : FaultCause) (s : State) : TakesFault s (raiseFault f s) f := by
  constructor <;> simp [faultRecord]

theorem sameSession_writeReg (s : State) (i : RegIx) (v : Word) : SameSession s (s.writeReg i v) :=
  ⟨rfl, rfl, rfl, rfl, rfl, rfl⟩

theorem sameSession_setMem (s : State) (m : Memory) : SameSession s { s with mem := m } := ⟨rfl, rfl, rfl, rfl, rfl, rfl⟩

theorem writesRegister_complete (s : State) (rd : RegIx) (v p : Word) :
    WritesRegister s (complete p (s.writeReg rd v)) rd v p where
  dest := by simp [readReg_complete, readReg_writeReg]
  zero := readReg_complete_zero _ _
  others r hrd h0 := by simp [readReg_complete, readReg_writeReg, h0, hrd.symm]
  pc := rfl
  memory _ := rfl
  session := ⟨rfl, rfl, rfl, rfl, rfl, rfl⟩

/-- With register 0 as destination the result does not matter: it is erased (R22). -/
theorem WritesRegister.of_zero {s t : State} {v p : Word} (h : WritesRegister s t 0 v p) (w : Word) :
    WritesRegister s t 0 w p := { h with dest := by simpa using h.zero }

/-! ### The instructions that do not advance by default, and the load -/

theorem exec_lw_of_raise {s : State} {rd : RegIx} {offs : Int} {ra : RegIx} {f : FaultCause}
    (h : memRead s.mem (effectiveAddress s offs ra) = .raise f) : exec (.lw rd offs ra) s = .next (raiseFault f s) := by
  simp only [exec, execLw, h]

theorem exec_jalr (s : State) (rd rs1 : RegIx) (imm : Int) :
    exec (.jalr rd rs1 imm) s = .next (complete (jalrTarget s rd rs1 imm) (s.writeReg rd (nextLine s))) := rfl

theorem exec_jal_of_lookup {s : State} {label : Text} {p : Word} (rd : RegIx) (h : labelLookup s.labels label = some p) :
    exec (.jal rd label) s = .next (complete p (s.writeReg rd (nextLine s))) := by
  simp only [exec, execJal, h, linkAndJump]

theorem exec_jal_of_absent {s : State} {label : Text} (rd : RegIx) (h : labelLookup s.labels label = none) :
    exec (.jal rd label) s = .next (raiseFault (.unresolvedLabel label) s) := by
  simp only [exec, execJal, h]

/-- The base of a `JALR` between two registers is the old `rs1`; with one register it may be the link too (R150, log 8). -/
theorem jalrBase_cases (s : State) (rd rs1 : RegIx) :
    jalrBase s rd rs1 = s.readReg rs1 ∨ rd = rs1 ∧ jalrBase s rd rs1 = nextLine s := by
  unfold jalrBase
  split
  · next h =>
    split
    · exact .inl rfl
    · exact .inr ⟨h, by rw [readReg_writeReg, if_pos h]⟩
  · exact .inl rfl

theorem jalrTarget_of_ne {rd rs1 : RegIx} (h : rd ≠ rs1) (s : State) (imm : Int) :
    jalrTarget s rd rs1 imm = s.readReg rs1 + BitVec.ofInt 32 imm := by
  simp only [jalrTarget, jalrBase, if_neg h, to32]

/-! ### The invariant (R21, R30 to R34, R195) -/

/-- Settles O4: nothing is stored in a fresh session, and its registers and tags are constant. -/
theorem invariantHoldsAtReset : Obligations.InvariantHoldsAtReset where
  memory := reset_memory_wf
  zero := by decide
  trimmed := by simp [State.reset]
  lineCount := by simp [State.reset]
  labels := rfl
  breakpoints := List.Pairwise.nil
  tags := by decide
  error := .inl ⟨rfl, rfl⟩

/-- Taking a fault changes the status and the last error together (R193). -/
theorem SessionInv.raiseFault {s : State} (h : SessionInv s) (f : FaultCause) : SessionInv (raiseFault f s) :=
  { h with error := .inr ⟨_, rfl, rfl⟩ }

/-- Completing a line keeps the invariant if what the line did to the state was confined to the registers and to a canonical
memory. -/
theorem SessionInv.complete {s u : State} (h : SessionInv s) (hu : SameSession s u) (hm : Memory.wf u.mem) (p : Word) :
    SessionInv (complete p u) where
  memory := hm
  zero := readReg_complete_zero u p
  trimmed := by simpa [hu.lines] using h.trimmed
  lineCount := by simpa [hu.lines] using h.lineCount
  labels := by simpa [hu.lines, hu.labels] using h.labels
  breakpoints := by simpa [hu.breakpoints] using h.breakpoints
  tags := by simpa [hu.tags] using h.tags
  error := by simpa [hu.status, hu.lastError] using h.error

theorem Ends.sessionInv {i : Instr} {s t : State} (hends : Ends i s t) (h : SessionInv s) : SessionInv t := by
  cases hends with
  | register rd v p => exact h.complete (sameSession_writeReg s rd v) h.memory p
  | plain => exact h.complete ⟨rfl, rfl, rfl, rfl, rfl, rfl⟩ h.memory _
  | store addr v m _ hm => exact h.complete (sameSession_setMem s m) (memWrite_wf s.mem m h.memory addr v hm) _
  | fault f => exact h.raiseFault f

/-- Settles O5, by the ends of a step. -/
theorem everyStepKeepsTheInvariant : Obligations.EveryStepKeepsTheInvariant := by
  intro s t hinv h
  rcases step_ends h with ⟨f, rfl⟩ | ⟨_, _, _, _, _, hends⟩
  · exact hinv.raiseFault f
  · exact hends.sessionInv hinv

/-! ### Register 0, the memory and the program counter (R22, R26, R28) -/

/-- Settles O9. -/
theorem zeroRegisterIsErasedAfterEveryLine : Obligations.ZeroRegisterIsErasedAfterEveryLine := by
  refine ⟨fun s v => by simp [readReg_writeReg], fun s offs ra f hf => ?_, fun s rs1 imm hne => ?_,
    fun s label p hp => ?_, fun s t h => ⟨fun ht => ?_, fun ht => ?_⟩⟩
  · exact ⟨_, exec_lw_of_raise hf, takesFault_raiseFault f s⟩
  · rw [← jalrTarget_of_ne hne.symm]
    exact ⟨_, exec_jalr s 0 rs1 imm, (writesRegister_complete s 0 _ _).of_zero 0⟩
  · exact ⟨_, exec_jal_of_lookup 0 hp, (writesRegister_complete s 0 _ p).of_zero 0⟩
  · obtain ⟨_, _, hz⟩ | ⟨f, rfl⟩ := step_completes_or_faults h
    · exact hz
    · simp at ht
  · obtain ⟨f, rfl⟩ := eq_raiseFault_of_not_ready h ht
    exact ⟨fun _ => rfl, rfl, fun _ => rfl⟩

/-- Only a store ends with another memory (R28). -/
theorem Ends.mem_eq {i : Instr} {s t : State} (hends : Ends i s t) (hi : isStore i = false) : t.mem = s.mem := by
  cases hends with
  | register | plain | fault => rfl
  | store _ _ _ hs => rw [hs] at hi; cases hi

theorem isStore_eq_false {i : Instr} (h : ∀ rs offs ra, i ≠ .sw rs offs ra) : isStore i = false := by
  cases i with
  | sw rs offs ra => exact absurd rfl (h rs offs ra)
  | _ => rfl

/-- Settles O14. -/
theorem onlyStoresChangeMemory : Obligations.OnlyStoresChangeMemory := by
  intro s t h hns
  suffices hm : t.mem = s.mem from ⟨hm, fun a => by rw [hm]⟩
  rcases step_ends h with ⟨f, rfl⟩ | ⟨line, i, hl, hi, _, hends⟩
  · rfl
  · exact hends.mem_eq (isStore_eq_false fun rs offs ra e => hns line rs offs ra hl (hi.trans (by rw [e])))

/-- Only the two jumps complete with another `pc` than the next line (R26). -/
theorem Ends.pc_eq_nextLine {i : Instr} {s t : State} (hends : Ends i s t) (hi : isJump i = false)
    (ht : t.status = .ready) : t.pc = nextLine s := by
  cases hends with
  | register _ _ _ _ hp => exact hp.resolve_left (by simp [hi])
  | plain | store => rfl
  | fault => simp at ht

theorem isJump_eq_false {i : Instr} (hjalr : ∀ rd rs1 imm, i ≠ .jalr rd rs1 imm)
    (hjal : ∀ rd label, i ≠ .jal rd label) : isJump i = false := by
  cases i with
  | jalr rd rs1 imm => exact absurd rfl (hjalr rd rs1 imm)
  | jal rd label => exact absurd rfl (hjal rd label)
  | _ => rfl

/-- A `JAL` that completes is at its label's entry (R151). -/
theorem lookup_of_exec_jal {s t : State} {rd : RegIx} {label : Text} (h : exec (.jal rd label) s = .next t)
    (ht : t.status = .ready) : labelLookup s.labels label = some t.pc := by
  cases hl : labelLookup s.labels label with
  | none => rw [exec_jal_of_absent rd hl] at h; cases h; simp at ht
  | some p => rw [exec_jal_of_lookup rd hl] at h; cases h; rfl

/-- Where a `JALR` goes (R150, log 8). -/
theorem pc_of_exec_jalr {s t : State} {rd rs1 : RegIx} {imm : Int} (h : exec (.jalr rd rs1 imm) s = .next t) :
    t.pc = s.readReg rs1 + BitVec.ofInt 32 imm ∨ (rd = rs1 ∧ t.pc = s.pc + 1 + BitVec.ofInt 32 imm) := by
  have hpc : t.pc = jalrBase s rd rs1 + BitVec.ofInt 32 imm := by rw [exec_jalr] at h; cases h; rfl
  rw [hpc]
  exact (jalrBase_cases s rd rs1).imp (fun e => by rw [e]) fun ⟨hr, e⟩ => ⟨hr, by rw [e]; rfl⟩

/-- The next line's index does not wrap where there is a line and the line count fits the `pc` (R31). -/
theorem nextLine_toNat {s : State} {line : Text} (hl : s.lines[s.pc.toNat]? = some line) (hn : s.lines.length < 2 ^ 32) :
    (nextLine s).toNat = s.pc.toNat + 1 := by
  obtain ⟨hlt, _⟩ := List.getElem?_eq_some_iff.mp hl
  exact BitVec.toNat_add_of_lt (show s.pc.toNat + 1 < 2 ^ 32 by omega)

/-- Settles O52. -/
theorem theDefaultAdvanceIsOneLine : Obligations.TheDefaultAdvanceIsOneLine := by
  intro s t hn h
  refine ⟨fun ht => ?_, fun ht hjalr hjal => ?_, fun ht line hl => ?_⟩
  · obtain ⟨f, rfl⟩ := eq_raiseFault_of_not_ready h ht
    rfl
  · obtain ⟨line, i, hl, hi, _, hends⟩ := exec_of_ready h ht
    have hj : isJump i = false := isJump_eq_false
      (fun rd rs1 imm e => hjalr line rd rs1 imm hl (hi.trans (by rw [e])))
      (fun rd label e => hjal line rd label hl (hi.trans (by rw [e])))
    have hpc := hends.pc_eq_nextLine hj ht
    exact ⟨hpc, by rw [hpc, nextLine_toNat hl hn]⟩
  · obtain ⟨hr, _⟩ := step_cases h
    refine ⟨fun rd label hd => ?_, fun rd rs1 imm hd => ?_⟩
    · exact lookup_of_exec_jal (step_of_decode hr hl hd ▸ h) ht
    · exact pc_of_exec_jalr (step_of_decode hr hl hd ▸ h)

/-! ### The label table (R32, R106 to R108) -/

/-- Recording labels keeps the names of a table distinct (R32). -/
theorem nodup_keys_recordLabel {table : List (Text × Word)} (h : (table.map Prod.fst).Nodup) (name : Text) (k : Nat) :
    ((recordLabel table name k).map Prod.fst).Nodup := by
  rw [keys_recordLabel]
  split
  · exact h
  · next hn => exact List.nodup_append'.mpr ⟨h, List.nodup_singleton _, List.disjoint_singleton.mpr hn⟩

theorem nodup_keys_scanFrom (lines : List Text) : ∀ (k : Nat) (table : List (Text × Word)),
    (table.map Prod.fst).Nodup → ((scanFrom k lines table).map Prod.fst).Nodup := by
  induction lines with
  | nil => exact fun _ _ h => h
  | cons line rest ih =>
    intro k table h
    unfold scanFrom
    split
    · exact ih _ _ (nodup_keys_recordLabel h _ k)
    · exact ih _ _ h

/-- An entry after a label is recorded is the new line, for the name recorded, or was one before (R108). -/
theorem labelLookup_recordLabel_some {table : List (Text × Word)} {name n : Text} {k : Nat} {v : Word}
    (h : labelLookup (recordLabel table name k) n = some v) :
    labelLookup table n = some v ∨ (n = name ∧ v = BitVec.ofNat 32 k) := by
  rw [labelLookup_recordLabel] at h
  split at h
  · next hn =>
    subst hn
    split at h
    · exact .inr ⟨rfl, by simpa using h.symm⟩
    · next w hw =>
      split at h
      · exact .inr ⟨rfl, by simpa using h.symm⟩
      · exact .inl (hw.trans h)
  · exact .inl h

/-- Recording a label gives its name an entry and takes none away. -/
theorem labelLookup_recordLabel_eq_none_iff (table : List (Text × Word)) (name n : Text) (k : Nat) :
    labelLookup (recordLabel table name k) n = none ↔ labelLookup table n = none ∧ name ≠ n := by
  rw [labelLookup_recordLabel]
  by_cases hn : n = name
  · cases labelLookup table name <;> simp [hn]
  · simp [hn, Ne.symm hn]

/-- An entry of a scanned table was there before, or is one of the lines scanned that define the name. -/
theorem labelLookup_scanFrom_some {name : Text} {v : Word} (lines : List Text) : ∀ (k : Nat) (table : List (Text × Word)),
    labelLookup (scanFrom k lines table) name = some v →
      labelLookup table name = some v ∨
        ∃ j, j < lines.length ∧ v = BitVec.ofNat 32 (k + j) ∧ lines[j]?.bind matchLabel = some name := by
  induction lines with
  | nil => exact fun _ _ h => .inl h
  | cons line rest ih =>
    intro k table h
    have later : (∃ j, j < rest.length ∧ v = BitVec.ofNat 32 (k + 1 + j) ∧ rest[j]?.bind matchLabel = some name) →
        ∃ j, j < (line :: rest).length ∧ v = BitVec.ofNat 32 (k + j) ∧
          (line :: rest)[j]?.bind matchLabel = some name := by
      rintro ⟨j, hj, hv, hm⟩
      exact ⟨j + 1, by simpa using hj, by rw [hv, Nat.add_assoc, Nat.add_comm 1], by simpa using hm⟩
    unfold scanFrom at h
    split at h
    · next n hn =>
      rcases ih _ _ h with h | h
      · rcases labelLookup_recordLabel_some h with h | ⟨rfl, hv⟩
        · exact .inl h
        · exact .inr ⟨0, by simp, hv, by simpa using hn⟩
      · exact .inr (later h)
    · exact (ih _ _ h).imp id later

/-- A name has no entry in a scanned table exactly if it had none and no line scanned defines it. -/
theorem labelLookup_scanFrom_eq_none_iff {name : Text} (lines : List Text) : ∀ (k : Nat) (table : List (Text × Word)),
    labelLookup (scanFrom k lines table) name = none ↔
      labelLookup table name = none ∧ ∀ line ∈ lines, matchLabel line ≠ some name := by
  induction lines with
  | nil => simp [scanFrom]
  | cons line rest ih =>
    intro k table
    unfold scanFrom
    split
    · next n hn =>
      simp only [ih, labelLookup_recordLabel_eq_none_iff, List.forall_mem_cons, hn, ne_eq, Option.some.injEq, and_assoc]
    · next hn => simp [ih, hn]

/-- Settles O54. -/
theorem tableEntriesAreDefiningLinesWithUniqueNames : Obligations.TableEntriesAreDefiningLinesWithUniqueNames := by
  intro lines
  refine ⟨nodup_keys_scanFrom lines 0 [] List.nodup_nil, fun name v h => ?_, fun name ⟨line, hmem, hm⟩ hnone => ?_⟩
  · rcases labelLookup_scanFrom_some lines 0 [] h with h | h
    · simp [labelLookup] at h
    · simpa using h
  · exact ((labelLookup_scanFrom_eq_none_iff lines 0 []).mp hnone).2 line hmem hm

end Sys2Proof.Machine
end

section
/-! PROOFS of the two statements that a run does not see part of the state: the tags (R30) and the registers without a name
(R23).  Both say that an update of the state commutes with everything the session does, and it is proved once, for every update
that no line notices. -/

namespace Sys2Proof.Machine

/-! ### A decoded instruction is well-formed (R62, R70 to R76, R82) -/

theorem nameable_of_resolveReg {tok : Text} {i : RegIx} (h : resolveReg tok = .ok i) : regNameable i = true :=
  regNameable_of_resolve (resolveReg_ok.mp h)

theorem inRange_of_resolveImm {tok : Text} {i : Int} (h : resolveImm tok = .ok i) : immInRange i = true :=
  immInRange_of_parseImm (resolveImm_ok.mp h)

/-- The label field of the `RL` pattern is a `WORD` (R67). -/
theorem isWord_of_matchRl {line : Text} {f : Fields2} (h : matchRl line = some f) : isWord f.f2 = true := by
  simp only [matchRl, Option.bind_eq_some_iff, Prod.exists, lexWord_iff, Option.ite_none_right_eq_some] at h
  obtain ⟨_, _, _, _, w, _, ⟨_, hw, _⟩, _, h⟩ := h
  cases h
  exact hw

theorem wellFormed_of_decodeMv {line : Text} {i : Instr} (h : decodeMv line = .ok i) : i.wellFormed = true := by
  obtain ⟨_, _, h⟩ := andThen_ok h
  obtain ⟨rd, hd, h⟩ := andThen_ok h
  obtain ⟨rs, hs, h⟩ := andThen_ok h
  cases h
  simp [Instr.wellFormed, nameable_of_resolveReg hd, nameable_of_resolveReg hs]

theorem wellFormed_of_decodeLi {line : Text} {i : Instr} (h : decodeLi line = .ok i) : i.wellFormed = true := by
  obtain ⟨_, _, h⟩ := andThen_ok h
  obtain ⟨rd, hd, h⟩ := andThen_ok h
  obtain ⟨imm, hi, h⟩ := andThen_ok h
  cases h
  simp [Instr.wellFormed, nameable_of_resolveReg hd, inRange_of_resolveImm hi]

theorem wellFormed_of_decodeRrr {mk : RegIx → RegIx → RegIx → Instr} {line : Text} {i : Instr}
    (hmk : ∀ rd rs1 rs2, (mk rd rs1 rs2).wellFormed = (regNameable rd && regNameable rs1 && regNameable rs2))
    (h : decodeRrr mk line = .ok i) : i.wellFormed = true := by
  obtain ⟨_, _, h⟩ := andThen_ok h
  obtain ⟨rd, hd, h⟩ := andThen_ok h
  obtain ⟨rs1, h1, h⟩ := andThen_ok h
  obtain ⟨rs2, h2, h⟩ := andThen_ok h
  cases h
  simp [hmk, nameable_of_resolveReg hd, nameable_of_resolveReg h1, nameable_of_resolveReg h2]

theorem wellFormed_of_decodeRri {mk : RegIx → RegIx → Int → Instr} {line : Text} {i : Instr}
    (hmk : ∀ rd rs1 imm, (mk rd rs1 imm).wellFormed = (regNameable rd && regNameable rs1 && immInRange imm))
    (h : decodeRri mk line = .ok i) : i.wellFormed = true := by
  obtain ⟨_, _, h⟩ := andThen_ok h
  obtain ⟨rd, hd, h⟩ := andThen_ok h
  obtain ⟨rs1, h1, h⟩ := andThen_ok h
  obtain ⟨imm, hi, h⟩ := andThen_ok h
  cases h
  simp [hmk, nameable_of_resolveReg hd, nameable_of_resolveReg h1, inRange_of_resolveImm hi]

theorem wellFormed_of_decodeRob {mk : RegIx → Int → RegIx → Instr} {line : Text} {i : Instr}
    (hmk : ∀ r offs ra, (mk r offs ra).wellFormed = (regNameable r && immInRange offs && regNameable ra))
    (h : decodeRob mk line = .ok i) : i.wellFormed = true := by
  obtain ⟨_, _, h⟩ := andThen_ok h
  obtain ⟨r, hr, h⟩ := andThen_ok h
  obtain ⟨offs, ho, h⟩ := andThen_ok h
  obtain ⟨ra, ha, h⟩ := andThen_ok h
  cases h
  simp [hmk, nameable_of_resolveReg hr, inRange_of_resolveImm ho, nameable_of_resolveReg ha]

theorem wellFormed_of_decodeJal {line : Text} {i : Instr} (h : decodeJal line = .ok i) : i.wellFormed = true := by
  obtain ⟨f, hf, h⟩ := andThen_ok h
  obtain ⟨rd, hd, h⟩ := andThen_ok h
  cases h
  simp [Instr.wellFormed, nameable_of_resolveReg hd, isWord_of_matchRl (requireShape_ok.mp hf)]

theorem wellFormed_of_decodeAs {m : Mnemonic} {line : Text} {i : Instr} (h : decodeAs m line = .ok i) :
    i.wellFormed = true := by
  cases m with
  | mv => exact wellFormed_of_decodeMv h
  | li => exact wellFormed_of_decodeLi h
  | jal => exact wellFormed_of_decodeJal h
  | lw | sw => exact wellFormed_of_decodeRob (fun _ _ _ => rfl) h
  | addi | subi | andi | ori | xori | slli | slri | jalr => exact wellFormed_of_decodeRri (fun _ _ _ => rfl) h
  | add | sub | mul | and | or | xor | sll | slr => exact wellFormed_of_decodeRrr (fun _ _ _ => rfl) h

/-- Whatever the decoder answers is an instruction of the hardware. -/
theorem wellFormed_of_decode {line : Text} {i : Instr} (h : decode line = .ok i) : i.wellFormed = true := by
  unfold decode at h
  split at h
  · cases h; rfl
  split at h
  · next name hm => cases h; exact ((matchLabel_iff line name).mp hm).1
  split at h
  · cases h
  · exact wellFormed_of_decodeAs h

/-- The destination of a well-formed instruction has a name (R23, R24). -/
theorem nameable_destination {i : Instr} {rd : RegIx} (hw : i.wellFormed = true) (hd : destinationOf i = some rd) :
    regNameable rd = true := by
  cases i with
  | sw | labelLine | emptyLine => cases hd
  | _ => cases hd; simp_all [Instr.wellFormed]

/-- A register without a name is none of those with one. -/
theorem ne_of_not_nameable {r i : RegIx} (hr : regNameable r = false) (hi : regNameable i = true) : r ≠ i := by
  rintro rfl
  rw [hr] at hi; cases hi

/-! ### Updates of the state that no line notices -/

/-- The update `g` keeps what an executed line can read (the registers with a name, the `pc`, the memory, the program, the
breakpoints, the status), and it commutes with everything a session can do to the state. -/
structure Unseen (g : State → State) : Prop where
  readReg : ∀ s r, regNameable r = true → (g s).readReg r = s.readReg r
  pc : ∀ s, (g s).pc = s.pc
  mem : ∀ s, (g s).mem = s.mem
  lines : ∀ s, (g s).lines = s.lines
  labels : ∀ s, (g s).labels = s.labels
  breakpoints : ∀ s, (g s).breakpoints = s.breakpoints
  status : ∀ s, (g s).status = s.status
  writeReg : ∀ s r v, regNameable r = true → (g s).writeReg r v = g (s.writeReg r v)
  setMem : ∀ (s : State) m, { g s with mem := m } = g { s with mem := m }
  complete : ∀ p s, complete p (g s) = g (complete p s)
  raiseFault : ∀ f s, raiseFault f (g s) = g (raiseFault f s)

/-- Other tags are not noticed (R30). -/
theorem unseen_withTags (tags : Vector CoherenceTag 8) : Unseen (withTags tags) := by
  constructor <;> intros <;> rfl

/-- Writes to two registers commute. -/
theorem writeReg_comm {i j : RegIx} (h : i ≠ j) (s : State) (v w : Word) :
    (s.writeReg i v).writeReg j w = (s.writeReg j w).writeReg i v := by
  simp only [State.writeReg, Vector.set_comm _ _ (Fin.val_ne_of_ne h)]

/-- The end of a line writes register 0 only. -/
theorem complete_eq_writeReg (p : Word) (s : State) : complete p s = { s.writeReg 0 0 with pc := p } := rfl

/-- Another value in a register without a name is not noticed (R23). -/
theorem unseen_writeReg {r : RegIx} (hr : regNameable r = false) (v : Word) : Unseen fun s => s.writeReg r v := by
  have h0 : r ≠ 0 := ne_of_not_nameable hr (by decide)
  constructor
  case readReg => intro s i hi; rw [readReg_writeReg, if_neg (ne_of_not_nameable hr hi)]
  case writeReg => exact fun s i w hi => writeReg_comm (ne_of_not_nameable hr hi) s v w
  case complete => intro p s; simp only [complete_eq_writeReg, writeReg_comm h0 s v 0]; rfl
  all_goals intros; rfl

section unseen
variable {g : State → State} (hg : Unseen g)
include hg

theorem Unseen.nextLine (s : State) : nextLine (g s) = nextLine s := by simp only [Machine.nextLine, hg.pc]

theorem Unseen.fetch (s : State) : fetch (g s) = fetch s := by simp only [Machine.fetch, hg.lines, hg.pc]

theorem Unseen.effectiveAddress {ra : RegIx} (ha : regNameable ra = true) (s : State) (offs : Int) :
    effectiveAddress (g s) offs ra = effectiveAddress s offs ra := by
  simp only [Machine.effectiveAddress, hg.readReg s ra ha]

theorem Unseen.jalrTarget {rd rs1 : RegIx} (hd : regNameable rd = true) (h1 : regNameable rs1 = true) (s : State) (imm : Int) :
    jalrTarget (g s) rd rs1 imm = jalrTarget s rd rs1 imm := by
  simp only [Machine.jalrTarget, jalrBase, hg.writeReg _ rd _ hd, hg.readReg _ rs1 h1, hg.nextLine]

theorem Unseen.writeAndAdvance {rd : RegIx} (hd : regNameable rd = true) (v : Word) (s : State) :
    writeAndAdvance rd v (g s) = mapNext g (writeAndAdvance rd v s) := by
  simp only [Machine.writeAndAdvance, mapNext, hg.nextLine, hg.writeReg s rd v hd, hg.complete]

theorem Unseen.writeShifted {rd : RegIx} (hd : regNameable rd = true) (r : Option Word) (s : State) :
    writeShifted rd r (g s) = mapNext g (writeShifted rd r s) := by
  cases r with
  | none => rfl
  | some v => exact hg.writeAndAdvance hd v s

theorem Unseen.linkAndJump {rd : RegIx} (hd : regNameable rd = true) (p : Word) (s : State) :
    linkAndJump rd p (g s) = mapNext g (linkAndJump rd p s) := by
  simp only [Machine.linkAndJump, mapNext, hg.nextLine, hg.writeReg s rd _ hd, hg.complete]

theorem Unseen.advanceOnly (s : State) : advanceOnly (g s) = mapNext g (advanceOnly s) := by
  simp only [Machine.advanceOnly, mapNext, hg.nextLine, hg.complete]

theorem Unseen.execJal {rd : RegIx} (hd : regNameable rd = true) (label : Text) (s : State) :
    execJal rd label (g s) = mapNext g (execJal rd label s) := by
  simp only [Machine.execJal, hg.labels]
  cases labelLookup s.labels label with
  | none => simp only [mapNext, hg.raiseFault]
  | some p => exact hg.linkAndJump hd p s

theorem Unseen.execLw {rd ra : RegIx} (hd : regNameable rd = true) (ha : regNameable ra = true) (offs : Int) (s : State) :
    execLw rd offs ra (g s) = mapNext g (execLw rd offs ra s) := by
  simp only [Machine.execLw, hg.mem, hg.effectiveAddress ha]
  cases memRead s.mem (Machine.effectiveAddress s offs ra) with
  | ok w => exact hg.writeAndAdvance hd w s
  | raise f => simp only [mapNext, hg.raiseFault]

theorem Unseen.execSw {rs ra : RegIx} (hs : regNameable rs = true) (ha : regNameable ra = true) (offs : Int) (s : State) :
    execSw rs offs ra (g s) = mapNext g (execSw rs offs ra s) := by
  simp only [Machine.execSw, hg.mem, hg.effectiveAddress ha, hg.readReg s rs hs]
  cases memWrite s.mem (Machine.effectiveAddress s offs ra) (s.readReg rs) with
  | ok m => simp only [mapNext, hg.nextLine, hg.setMem, hg.complete]
  | raise f => simp only [mapNext, hg.raiseFault]

/-- An instruction of the hardware does the same before and after an unseen update. -/
theorem Unseen.exec {i : Instr} (hw : i.wellFormed = true) (s : State) : exec i (g s) = mapNext g (exec i s) := by
  cases i with
  | mv rd rs =>
    obtain ⟨hd, hs⟩ := Bool.and_eq_true_iff.mp hw
    simp only [Machine.exec, execMv, hg.readReg s rs hs, hg.writeAndAdvance hd]
  | li rd imm => exact hg.writeAndAdvance (Bool.and_eq_true_iff.mp hw).1 _ s
  | add rd rs1 rs2 | sub rd rs1 rs2 | mul rd rs1 rs2 | and rd rs1 rs2 | or rd rs1 rs2 | xor rd rs1 rs2 =>
    simp only [Instr.wellFormed, Bool.and_eq_true] at hw
    obtain ⟨⟨hd, h1⟩, h2⟩ := hw
    simp only [Machine.exec, execAdd, execSub, execMul, execAnd, execOr, execXor, hg.readReg s rs1 h1, hg.readReg s rs2 h2,
      hg.writeAndAdvance hd]
  | sll rd rs1 rs2 | slr rd rs1 rs2 =>
    simp only [Instr.wellFormed, Bool.and_eq_true] at hw
    obtain ⟨⟨hd, h1⟩, h2⟩ := hw
    simp only [Machine.exec, execSll, execSlr, hg.readReg s rs1 h1, hg.readReg s rs2 h2, hg.writeShifted hd]
  | addi rd rs1 imm | subi rd rs1 imm | andi rd rs1 imm | ori rd rs1 imm | xori rd rs1 imm =>
    simp only [Instr.wellFormed, Bool.and_eq_true] at hw
    obtain ⟨⟨hd, h1⟩, _⟩ := hw
    simp only [Machine.exec, execAddi, execSubi, execAndi, execOri, execXori, hg.readReg s rs1 h1, hg.writeAndAdvance hd]
  | slli rd rs1 imm | slri rd rs1 imm =>
    simp only [Instr.wellFormed, Bool.and_eq_true] at hw
    obtain ⟨⟨hd, h1⟩, _⟩ := hw
    simp only [Machine.exec, execSlli, execSlri, hg.readReg s rs1 h1, hg.writeShifted hd]
  | jalr rd rs1 imm =>
    simp only [Instr.wellFormed, Bool.and_eq_true] at hw
    obtain ⟨⟨hd, h1⟩, _⟩ := hw
    simp only [Machine.exec, execJalr, hg.jalrTarget hd h1, hg.linkAndJump hd]
  | jal rd label => exact hg.execJal (Bool.and_eq_true_iff.mp hw).1 label s
  | lw rd offs ra =>
    simp only [Instr.wellFormed, Bool.and_eq_true] at hw
    exact hg.execLw hw.1.1 hw.2 offs s
  | sw rs offs ra =>
    simp only [Instr.wellFormed, Bool.and_eq_true] at hw
    exact hg.execSw hw.1.1 hw.2 offs s
  | labelLine name => exact hg.advanceOnly s
  | emptyLine => exact hg.advanceOnly s

theorem Unseen.execute (line : Text) (s : State) : execute line (g s) = mapNext g (execute line s) := by
  unfold Machine.execute
  cases hd : decode line with
  | ok i => exact hg.exec (wellFormed_of_decode hd) s
  | raise f => simp only [mapNext, hg.raiseFault]

theorem Unseen.step (s : State) : step (g s) = mapNext g (step s) := by
  simp only [Machine.step, stepSession, hg.status, attempt, hg.fetch]
  cases s.status with
  | halted r => rfl
  | ready =>
    cases Machine.fetch s with
    | some line => exact hg.execute line s
    | none => simp only [mapNext, hg.raiseFault]

/-- A batch does the same before and after an unseen update, by induction over its attempts (R199). -/
theorem Unseen.runBatch (n : Nat) : ∀ (first : Bool) (s : State),
    runBatch first n (g s) = mapNext (fun r => (r.1, g r.2)) (runBatch first n s) := by
  induction n with
  | zero => intro _ _; rfl
  | succ n ih =>
    intro first s
    cases hl : Machine.fetch s with
    | none => cases first <;> simp [Machine.runBatch, hg.fetch, hl, mapNext, hg.raiseFault]
    | some line =>
      cases hb : (!first && decide (s.pc ∈ s.breakpoints)) with
      | true => simp [Machine.runBatch, hg.fetch, hl, hg.pc, hg.breakpoints, hb, mapNext]
      | false =>
        obtain ⟨t, ht⟩ := execute_answers line s
        have htg : Machine.execute line (g s) = .next (g t) := by rw [hg.execute, ht]; rfl
        rw [runBatch_line hl hb ht, runBatch_line ((hg.fetch s).trans hl) (by rw [hg.pc, hg.breakpoints, hb]) htg, hg.status]
        cases t.status with
        | ready => exact ih false t
        | halted r => rfl

theorem Unseen.runAmount (n : Nat) (s : State) :
    runAmount n (g s) = mapNext (fun r => (r.1, g r.2)) (runAmount n s) := by
  simp only [Machine.runAmount, hg.status]
  cases s.status with
  | ready => exact hg.runBatch n true s
  | halted r => rfl

end unseen

/-! ### The tags (R30) -/

/-- An accepted program load sets the program and nothing else (R203, R225). -/
theorem eq_setProgram_of_loadProgram {source : List Text} {s t : State} (h : loadProgram source s = .next t) :
    t = setProgram (source.map trim) s := by
  unfold loadProgram at h
  split at h
  · cases h
  split at h
  · cases h
  split at h
  · cases h
  · cases h; rfl

/-- Whether a load is accepted does not depend on the tags, nor does what it sets. -/
theorem loadProgram_withTags (tags : Vector CoherenceTag 8) (source : List Text) (s : State) :
    loadProgram source (withTags tags s) = mapNext (withTags tags) (loadProgram source s) := by
  unfold loadProgram
  split
  · rfl
  split
  · rfl
  split <;> rfl

/-- Settles O16. -/
theorem tagsAreNeitherReadNorChanged : Obligations.TagsAreNeitherReadNorChanged := by
  refine ⟨by decide, fun s t h => (step_keeps h).1, fun n s b t h => ?_, fun source s t h => ?_,
    fun k s => ⟨rfl, rfl, rfl⟩, fun s tags => ?_⟩
  · exact runAmount_induction (P := fun u => u.tags = s.tags) (fun u v hu huv => (step_keeps huv).1.trans hu) rfl h
  · rw [eq_setProgram_of_loadProgram h]; rfl
  · have hg := unseen_withTags tags
    exact ⟨hg.step s, fun n => hg.runAmount n s, fun source => loadProgram_withTags tags source s,
      fun k => ⟨rfl, rfl⟩, rfl, rfl, rfl, rfl⟩

/-! ### The registers without a name (R23) -/

/-- A name that resolves is in the table with its index (R70). -/
theorem mem_regNames_of_resolve {tok : Text} {i : RegIx} (h : regResolve tok = some i) : (tok, i) ∈ regNames := by
  obtain ⟨e, he, rfl⟩ := Option.map_eq_some_iff.mp h
  have htok : e.1 = tok := by simpa using List.find?_some he
  exact htok ▸ List.mem_of_find?_eq_some he

/-- Where the table has an index under one name only, that name alone resolves to it. -/
theorem regResolve_eq_some_iff {name : Text} {i : RegIx} (hname : regResolve name = some i)
    (honly : ∀ e ∈ regNames, e.2 = i → e.1 = name) (tok : Text) : regResolve tok = some i ↔ tok = name :=
  ⟨fun h => honly _ (mem_regNames_of_resolve h) rfl, fun h => h ▸ hname⟩

theorem not_nameable {r : RegIx} (h : r = 28 ∨ r = 30 ∨ r = 31) : regNameable r = false := by
  rcases h with rfl | rfl | rfl <;> decide

/-- A well-formed instruction leaves a register without a name alone. -/
theorem Ends.readReg_of_not_nameable {i : Instr} {s t : State} (hends : Ends i s t) (hw : i.wellFormed = true) {r : RegIx}
    (hr : regNameable r = false) : t.readReg r = s.readReg r := by
  have h0 : r ≠ 0 := ne_of_not_nameable hr (by decide)
  cases hends with
  | register rd v p hd =>
    have hrd : r ≠ rd := ne_of_not_nameable hr (nameable_destination hw hd)
    rw [readReg_complete, if_neg h0, readReg_writeReg, if_neg hrd.symm]
  | plain | store => simp [readReg_complete, h0]
  | fault => rfl

theorem readReg_of_step {s t : State} (h : step s = .next t) {r : RegIx} (hr : regNameable r = false) :
    t.readReg r = s.readReg r := by
  rcases step_ends h with ⟨f, rfl⟩ | ⟨_, _, _, hd, _, hends⟩
  · rfl
  · exact hends.readReg_of_not_nameable (wellFormed_of_decode hd) hr

/-- Settles O17. -/
theorem unnamedRegistersAreNeverReached : Obligations.UnnamedRegistersAreNeverReached := by
  refine ⟨fun tok i h => ?_, fun i h => ?_, fun tok => ?_, fun tok => ?_, fun s t h r hr => ?_, fun s t v h r hr => ?_,
    fun n s b t h r hr => ?_⟩
  · exact (nameable_iff i).mp (regNameable_of_resolve h)
  · exact ⟨_, regResolve_regName i ((nameable_iff i).mpr h)⟩
  · exact regResolve_eq_some_iff (by decide) (by decide) tok
  · exact regResolve_eq_some_iff (by decide) (by decide) tok
  · exact readReg_of_step h (not_nameable hr)
  · rw [(unseen_writeReg (not_nameable hr) v).step s, h, mapNext]
  · exact runAmount_induction (P := fun u => u.readReg r = s.readReg r)
      (fun u w hu huw => (readReg_of_step huw (not_nameable hr)).trans hu) rfl h

end Sys2Proof.Machine
end

section
/-! PROOFS of the statements about memory (`20_memory.md`).  First the three answers of the accessor, each under its condition
on the address, and the two memory instructions by what the accessor answers. -/

namespace Sys2Proof.Machine

/-! ### The accessor by its address (R40 to R45) -/

section accessor
variable {addr : Word} (m : Memory)

theorem memRead_of_misaligned (h : addr.toNat % 4 ≠ 0) : memRead m addr = .raise (.unalignedAccess addr) := by
  obtain ⟨_, e⟩ | ⟨ha, _⟩ | ⟨ha, _⟩ := memRead_cases m addr
  · exact e
  all_goals exact absurd ha h

theorem memRead_of_outOfBounds (h : addr.toNat % 4 = 0) (hb : 512 ≤ addr.toNat) :
    memRead m addr = .raise (.outOfBounds addr) := by
  obtain ⟨ha, _⟩ | ⟨_, _, e⟩ | ⟨_, hlt, _⟩ := memRead_cases m addr
  · exact absurd h ha
  · exact e
  · exact absurd hb (Nat.not_le_of_gt hlt)

theorem memRead_of_legal (h : LegalAddress addr) : memRead m addr = .ok (m.wordFrom addr.toNat) := by
  obtain ⟨ha, _⟩ | ⟨_, hb, _⟩ | ⟨_, _, e⟩ := memRead_cases m addr
  · exact absurd h.1 ha
  · exact absurd hb (Nat.not_le_of_gt h.2)
  · exact e

theorem memWrite_of_misaligned (h : addr.toNat % 4 ≠ 0) (v : Word) : memWrite m addr v = .raise (.unalignedAccess addr) := by
  obtain ⟨_, e⟩ | ⟨ha, _⟩ | ⟨ha, _⟩ := memWrite_cases m addr v
  · exact e
  all_goals exact absurd ha h

theorem memWrite_of_outOfBounds (h : addr.toNat % 4 = 0) (hb : 512 ≤ addr.toNat) (v : Word) :
    memWrite m addr v = .raise (.outOfBounds addr) := by
  obtain ⟨ha, _⟩ | ⟨_, _, e⟩ | ⟨_, hlt, _⟩ := memWrite_cases m addr v
  · exact absurd h ha
  · exact e
  · exact absurd hb (Nat.not_le_of_gt hlt)

theorem memWrite_of_legal (h : LegalAddress addr) (v : Word) : memWrite m addr v = .ok (m.setWordFrom addr.toNat v) := by
  obtain ⟨ha, _⟩ | ⟨_, hb, _⟩ | ⟨_, _, e⟩ := memWrite_cases m addr v
  · exact absurd h.1 ha
  · exact absurd hb (Nat.not_le_of_gt h.2)
  · exact e

end accessor

/-! ### Reads after a write (R42, R49) -/

theorem byteAt_setWordFrom_inside {m : Memory} (h : m.Pairwise fun c d => c.1 < d.1) (a : Nat) (v : Word) {k : Nat}
    (hk : k < 4) : (m.setWordFrom a v).byteAt (a + k) = byteOfWord v k := by
  rw [byteAt_setWordFrom m h]
  interval_cases k <;> simp

theorem byteAt_setWordFrom_outside {m : Memory} (h : m.Pairwise fun c d => c.1 < d.1) {a x : Nat} (v : Word)
    (hx : x < a ∨ a + 4 ≤ x) : (m.setWordFrom a v).byteAt x = m.byteAt x := by
  rw [byteAt_setWordFrom m h, if_neg (by omega), if_neg (by omega), if_neg (by omega), if_neg (by omega)]

/-- The accessor reads back the word it wrote (R42). -/
theorem memRead_of_memWrite_same {m m' : Memory} (hm : Memory.wf m) {addr v : Word} (h : LegalAddress addr)
    (hw : memWrite m addr v = .ok m') : memRead m' addr = .ok v := by
  rw [memWrite_of_legal m h] at hw
  cases hw
  rw [memRead_of_legal _ h, wordFrom_setWordFrom_same m hm.1]

/-- A write is not seen at any other address: whether an access faults depends on its address only, and the words at two legal
addresses do not overlap (R42). -/
theorem memRead_of_memWrite_other {m m' : Memory} (hm : Memory.wf m) {addr addr' v : Word} (h : LegalAddress addr)
    (hw : memWrite m addr v = .ok m') (hne : addr' ≠ addr) : memRead m' addr' = memRead m addr' := by
  rw [memWrite_of_legal m h] at hw
  cases hw
  obtain ⟨ha, e⟩ | ⟨ha, hb, e⟩ | ⟨ha, hb, e⟩ := memRead_cases m addr'
  · rw [e, memRead_of_misaligned _ ha]
  · rw [e, memRead_of_outOfBounds _ ha hb]
  · have apart : addr'.toNat + 4 ≤ addr.toNat ∨ addr.toNat + 4 ≤ addr'.toNat := by
      have hne' : addr'.toNat ≠ addr.toNat := fun he => hne (BitVec.eq_of_toNat_eq he)
      have := h.1
      omega
    rw [e, memRead_of_legal _ ⟨ha, hb⟩, wordFrom_setWordFrom_other m hm.1 _ _ v apart]

/-- Settles O7, by the three answers of the accessor and the bytes of the word it reads or writes. -/
theorem alignmentThenBoundsDecideAnAccess : Obligations.AlignmentThenBoundsDecideAnAccess := by
  refine fun m addr v => ⟨fun h => ⟨memRead_of_misaligned m h, memWrite_of_misaligned m h v⟩,
    fun h hb => ⟨memRead_of_outOfBounds m h hb, memWrite_of_outOfBounds m h hb v⟩, fun h => ⟨?_, ?_⟩⟩
  · exact ⟨_, memRead_of_legal m h, fun k hk => byteOfWord_wordFrom m _ k hk⟩
  · exact ⟨_, memWrite_of_legal m h v, fun hm =>
      ⟨fun k hk => byteAt_setWordFrom_inside hm.1 _ v hk, fun a ha => byteAt_setWordFrom_outside hm.1 v ha⟩⟩

/-- Settles O8: an address that is both misaligned and out of bounds takes the alignment fault (decision D14). -/
theorem aWriteChangesExactlyOneWord : Obligations.AWriteChangesExactlyOneWord := by
  refine fun m addr v hm => ⟨fun h _ => memWrite_of_misaligned m h v, fun h hb => memWrite_of_outOfBounds m h hb v,
    fun h _ => .inl (memWrite_of_misaligned m h v), fun h => ?_⟩
  have hw := memWrite_of_legal m h v
  exact ⟨_, hw, memWrite_wf m _ hm addr v hw, memRead_of_memWrite_same hm h hw,
    fun addr' hne => memRead_of_memWrite_other hm h hw hne⟩

/-! ### The program store (R52) -/

/-- Settles O15: a step keeps lines and labels, and so, by induction over the batch, does a batch. -/
theorem programIsSeparateFromMemory : Obligations.ProgramIsSeparateFromMemory := by
  have keep {s t : State} (h : step s = .next t) : t.lines = s.lines ∧ t.labels = s.labels := by
    obtain ⟨_, hlines, hlabels, _⟩ := step_keeps h
    exact ⟨hlines, hlabels⟩
  refine ⟨fun s t => keep, fun n s b t h => ?_, fun k s => ⟨rfl, rfl, rfl, rfl⟩, fun s => ⟨rfl, rfl⟩, fun s m => rfl⟩
  refine runAmount_induction (P := fun u => u.lines = s.lines ∧ u.labels = s.labels) (fun u w hu huw => ?_) ⟨rfl, rfl⟩ h
  exact ⟨(keep huw).1.trans hu.1, (keep huw).2.trans hu.2⟩

/-! ### A store and a load (R160, R161) -/

theorem exec_lw_of_ok {s : State} {offs : Int} {ra : RegIx} {w : Word} (rd : RegIx)
    (h : memRead s.mem (effectiveAddress s offs ra) = .ok w) :
    exec (.lw rd offs ra) s = .next (complete (nextLine s) (s.writeReg rd w)) := by
  simp only [exec, execLw, h, writeAndAdvance]

theorem exec_sw_of_ok {s : State} {rs : RegIx} {offs : Int} {ra : RegIx} {m : Memory}
    (h : memWrite s.mem (effectiveAddress s offs ra) (s.readReg rs) = .ok m) :
    exec (.sw rs offs ra) s = .next (complete (nextLine s) { s with mem := m }) := by
  simp only [exec, execSw, h]

/-- Settles O38: the store leaves the memory the accessor wrote, and the load reads the word back from it. -/
theorem storeThenLoadReturnsTheStoredValue : Obligations.StoreThenLoadReturnsTheStoredValue := by
  intro s rs offs ra rd offs' ra' hm hea
  have hw := memWrite_of_legal s.mem hea (s.readReg rs)
  refine ⟨_, exec_sw_of_ok hw, fun hea' => ⟨_, exec_lw_of_ok rd (w := s.readReg rs) ?_, ?_⟩⟩
  · rw [hea']
    exact memRead_of_memWrite_same hm hea hw
  · exact (writesRegister_complete _ rd _ _).dest

end Sys2Proof.Machine
end

section
/-! PROOFS of the statements about the six patterns (`30_encoding.md` R61 to R69, R87): first each matcher as the form it
stands for, then which patterns can match one line. -/

namespace Sys2Proof.Machine

/-! ### The matchers as forms (R65 to R69) -/

/-- The scanner `lex` takes the tokens of the class `P`; none of them begins with whitespace, and a character of `p` after one
would go on with it. -/
structure Scans (lex : Text → Option (Text × Text)) (P : Text → Prop) (p : Byte → Bool) : Prop where
  iff : ∀ l t r, lex l = some (t, r) ↔ l = t ++ r ∧ P t ∧ StartsNot p r
  startsNot_space : ∀ t r, P t → StartsNot isSpace (t ++ r)

theorem scans_word : Scans lexWord (isWord · = true) isWordChar := ⟨lexWord_iff, fun _ _ => word_startsNot⟩

theorem scans_val : Scans lexVal IsVal isWordChar := ⟨lexVal_iff, fun _ _ => val_startsNot⟩

theorem scans_int : Scans lexInt (isInt · = true) isDigit := ⟨lexInt_iff, fun _ _ => int_startsNot⟩

section scans
variable {lex : Text → Option (Text × Text)} {P : Text → Prop} {p : Byte → Bool} (hlex : Scans lex P p) (line : Text)
include hlex

/-- A head, then one token to the end of the line: `2OP` and `RL`. -/
theorem Scans.twoOperands_iff (f : Fields2) :
    ((matchHead line).bind fun h => (lex h.2.2).bind fun f2 =>
      if f2.2 = [] then some (⟨h.1, h.2.1, f2.1⟩ : Fields2) else none) = some f ↔
    ∃ g pad, line = headText f.op g f.f1 pad ++ f.f2 ∧ isWord f.op = true ∧ IsGap g ∧ isWord f.f1 = true ∧ IsPad pad ∧
      P f.f2 := by
  simp only [Option.bind_eq_some_iff, Prod.exists, matchHead_iff, hlex.iff, Option.ite_none_right_eq_some]
  constructor
  · rintro ⟨op, f1, _, ⟨g, pad, rfl, ho, hg, h1, hp, _⟩, f2, _, ⟨rfl, h2, _⟩, rfl, hf⟩
    cases hf
    exact ⟨g, pad, by simp, ho, hg, h1, hp, h2⟩
  · rintro ⟨g, pad, hline, ho, hg, h1, hp, h2⟩
    have hs := startsNot_of_append_nil (hlex.startsNot_space f.f2 [] h2)
    exact ⟨f.op, f.f1, f.f2, ⟨g, pad, hline, ho, hg, h1, hp, hs⟩, f.f2, [], ⟨by simp, h2, by simp⟩, rfl, rfl⟩

/-- A head, then a `WORD`, a separator and one token to the end of the line: `RRR` and `RRI`. -/
theorem Scans.threeOperands_iff (f : Fields3) :
    ((matchHead line).bind fun h => (lexWord h.2.2).bind fun f2 => (lexSep f2.2).bind fun r => (lex r).bind fun f3 =>
      if f3.2 = [] then some (⟨h.1, h.2.1, f2.1, f3.1⟩ : Fields3) else none) = some f ↔
    ∃ g pad pad', line = headText f.op g f.f1 pad ++ f.f2 ++ [ch ','] ++ pad' ++ f.f3 ∧
      isWord f.op = true ∧ IsGap g ∧ isWord f.f1 = true ∧ IsPad pad ∧ isWord f.f2 = true ∧ IsPad pad' ∧ P f.f3 := by
  simp only [Option.bind_eq_some_iff, Prod.exists, matchHead_iff, lexWord_iff, lexSep_iff, hlex.iff,
    Option.ite_none_right_eq_some]
  constructor
  · rintro ⟨op, f1, _, ⟨g, pad, rfl, ho, hg, h1, hp, _⟩, f2, _, ⟨rfl, h2, _⟩, _, ⟨pad', rfl, hp', _⟩, f3, _, ⟨rfl, h3, _⟩,
      rfl, hf⟩
    cases hf
    exact ⟨g, pad, pad', by simp, ho, hg, h1, hp, h2, hp', h3⟩
  · rintro ⟨g, pad, pad', hline, ho, hg, h1, hp, h2, hp', h3⟩
    have hs := startsNot_of_append_nil (hlex.startsNot_space f.f3 [] h3)
    exact ⟨f.op, f.f1, f.f2 ++ ch ',' :: (pad' ++ f.f3), ⟨g, pad, by simp [hline], ho, hg, h1, hp, word_startsNot h2⟩, f.f2, _,
      ⟨rfl, h2, by simp⟩, f.f3, ⟨pad', rfl, hp', hs⟩, f.f3, [], ⟨by simp, h3, by simp⟩, rfl, rfl⟩

end scans

theorem matchTwoOp_iff (line : Text) (f : Fields2) :
    matchTwoOp line = some f ↔ ∃ g pad, line = headText f.op g f.f1 pad ++ f.f2 ∧ isWord f.op = true ∧ IsGap g ∧
      isWord f.f1 = true ∧ IsPad pad ∧ IsVal f.f2 :=
  scans_val.twoOperands_iff line f

theorem matchRl_iff (line : Text) (f : Fields2) :
    matchRl line = some f ↔ ∃ g pad, line = headText f.op g f.f1 pad ++ f.f2 ∧ isWord f.op = true ∧ IsGap g ∧
      isWord f.f1 = true ∧ IsPad pad ∧ isWord f.f2 = true :=
  scans_word.twoOperands_iff line f

theorem matchRrr_iff (line : Text) (f : Fields3) :
    matchRrr line = some f ↔ ∃ g pad pad', line = headText f.op g f.f1 pad ++ f.f2 ++ [ch ','] ++ pad' ++ f.f3 ∧
      isWord f.op = true ∧ IsGap g ∧ isWord f.f1 = true ∧ IsPad pad ∧ isWord f.f2 = true ∧ IsPad pad' ∧ isWord f.f3 = true :=
  scans_word.threeOperands_iff line f

theorem matchRri_iff (line : Text) (f : Fields3) :
    matchRri line = some f ↔ ∃ g pad pad', line = headText f.op g f.f1 pad ++ f.f2 ++ [ch ','] ++ pad' ++ f.f3 ∧
      isWord f.op = true ∧ IsGap g ∧ isWord f.f1 = true ∧ IsPad pad ∧ isWord f.f2 = true ∧ IsPad pad' ∧ isInt f.f3 = true :=
  scans_int.threeOperands_iff line f

theorem matchRob_iff (line : Text) (f : Fields3) :
    matchRob line = some f ↔ ∃ g pad, line = headText f.op g f.f1 pad ++ f.f2 ++ [ch '('] ++ f.f3 ++ [ch ')'] ∧
      isWord f.op = true ∧ IsGap g ∧ isWord f.f1 = true ∧ IsPad pad ∧ isInt f.f2 = true ∧ isWord f.f3 = true := by
  simp only [matchRob, Option.bind_eq_some_iff, Prod.exists, matchHead_iff, lexInt_iff, lexWord_iff, lexChar_iff,
    Option.ite_none_right_eq_some]
  constructor
  · rintro ⟨op, f1, _, ⟨g, pad, rfl, ho, hg, h1, hp, _⟩, f2, _, ⟨rfl, h2, _⟩, _, rfl, f3, _, ⟨rfl, h3, _⟩, _, rfl, rfl, hf⟩
    cases hf
    exact ⟨g, pad, by simp, ho, hg, h1, hp, h2, h3⟩
  · rintro ⟨g, pad, hline, ho, hg, h1, hp, h2, h3⟩
    exact ⟨f.op, f.f1, f.f2 ++ ch '(' :: (f.f3 ++ [ch ')']), ⟨g, pad, by simp [hline], ho, hg, h1, hp, int_startsNot h2⟩,
      f.f2, _, ⟨rfl, h2, by simp⟩, _, rfl, f.f3, _, ⟨rfl, h3, by simp⟩, [], rfl, rfl, rfl⟩

/-! ### The character classes (R61) -/

theorem isSpace_iff (b : Byte) : isSpace b = true ↔ b.toNat ∈ [0x20, 0x09, 0x0A, 0x0B, 0x0C, 0x0D] := by
  simp only [isSpace, Bool.or_eq_true, Bool.and_eq_true, beq_iff_eq, decide_eq_true_eq, List.mem_cons, List.not_mem_nil,
    or_false]
  omega

theorem isDigit_iff (b : Byte) : isDigit b = true ↔ 0x30 ≤ b.toNat ∧ b.toNat ≤ 0x39 := by
  simp only [isDigit, Bool.and_eq_true, decide_eq_true_eq]

theorem isWordChar_iff (b : Byte) : isWordChar b = true ↔ (0x41 ≤ b.toNat ∧ b.toNat ≤ 0x5A) ∨
    (0x61 ≤ b.toNat ∧ b.toNat ≤ 0x7A) ∨ (0x30 ≤ b.toNat ∧ b.toNat ≤ 0x39) ∨ b.toNat = 0x5F := by
  simp only [isWordChar, Bool.or_eq_true, isDigit_iff, Bool.and_eq_true, decide_eq_true_eq, beq_iff_eq]
  omega

/-- Settles O24: each scanner answers exactly the splits of its token class, and a matcher is its scanners in a row. -/
theorem patternsMatchExactlyTheirForms : Obligations.PatternsMatchExactlyTheirForms :=
  ⟨fun b => ⟨isSpace_iff b, isDigit_iff b, isWordChar_iff b⟩, fun line =>
    ⟨matchLabel_iff line, matchTwoOp_iff line, matchRl_iff line, matchRrr_iff line, matchRri_iff line, matchRob_iff line⟩⟩

/-! ### Characters that only the separators and the sign of a pattern bring into a line

The number of commas is 0 in a `LABEL` line, 1 in a `2OP`, `RL` or `ROB` line and 2 in an `RRR` or `RRI` line; only `ROB` brings
in a parenthesis, and only an `INT` or a `VAL` brings in a minus. -/

section separators
variable {c : Byte} (hw : isWordChar c = false)

theorem count_eq_zero_of_class {p : Byte → Bool} {t : Text} (hc : p c = false) (ht : ∀ b ∈ t, p b = true) : t.count c = 0 :=
  List.count_eq_zero.mpr fun hmem => by simp [ht c hmem] at hc

include hw

theorem count_word {t : Text} (ht : isWord t = true) : t.count c = 0 :=
  count_eq_zero_of_class hw ((isWord_iff t).mp ht).2

theorem count_val (hm : c ≠ ch '-') {t : Text} (ht : IsVal t) : t.count c = 0 := by
  rcases ht with ht | ⟨w, rfl, hword⟩
  · exact count_word hw ht
  · rw [List.count_cons_of_ne hm.symm, count_word hw hword]

theorem count_int (hm : c ≠ ch '-') {t : Text} (ht : isInt t = true) : t.count c = 0 :=
  count_val hw hm (val_of_int ht)

/-- The head brings in one comma. -/
theorem count_headText (hs : isSpace c = false) {op g f1 pad : Text} (ho : isWord op = true) (hg : IsGap g)
    (h1 : isWord f1 = true) (hp : IsPad pad) : (headText op g f1 pad).count c = [ch ','].count c := by
  simp only [headText, List.count_append, count_word hw ho, count_eq_zero_of_class hs hg.2, count_word hw h1,
    count_eq_zero_of_class hs hp, Nat.zero_add, Nat.add_zero]

end separators

/-! #### The count of a character in a line of each pattern -/

theorem commas_matchLabel {line name : Text} (h : matchLabel line = some name) : line.count (ch ',') = 0 := by
  obtain ⟨hn, rfl⟩ := (matchLabel_iff line name).mp h
  rw [List.count_append, count_word wordChar_comma hn]
  decide

section counts
variable {line : Text} {c : Byte}

theorem count_matchTwoOp {f : Fields2} (h : matchTwoOp line = some f) (hw : isWordChar c = false) (hs : isSpace c = false) :
    line.count c = [ch ','].count c + f.f2.count c := by
  obtain ⟨g, pad, rfl, ho, hg, h1, hp, -⟩ := (matchTwoOp_iff line f).mp h
  rw [List.count_append, count_headText hw hs ho hg h1 hp]

theorem count_matchRrr {f : Fields3} (h : matchRrr line = some f) (hw : isWordChar c = false) (hs : isSpace c = false) :
    line.count c = 2 * [ch ','].count c := by
  obtain ⟨g, pad, pad', rfl, ho, hg, h1, hp, h2, hp', h3⟩ := (matchRrr_iff line f).mp h
  simp only [List.count_append, count_headText hw hs ho hg h1 hp, count_word hw h2, count_eq_zero_of_class hs hp',
    count_word hw h3]
  omega

theorem count_matchRri {f : Fields3} (h : matchRri line = some f) (hw : isWordChar c = false) (hs : isSpace c = false) :
    line.count c = 2 * [ch ','].count c + f.f3.count c := by
  obtain ⟨g, pad, pad', rfl, ho, hg, h1, hp, h2, hp', -⟩ := (matchRri_iff line f).mp h
  simp only [List.count_append, count_headText hw hs ho hg h1 hp, count_word hw h2, count_eq_zero_of_class hs hp']
  omega

theorem count_matchRob {f : Fields3} (h : matchRob line = some f) (hw : isWordChar c = false) (hs : isSpace c = false)
    (hm : c ≠ ch '-') : line.count c = [ch ','].count c + [ch '('].count c + [ch ')'].count c := by
  obtain ⟨g, pad, rfl, ho, hg, h1, hp, h2, h3⟩ := (matchRob_iff line f).mp h
  simp only [List.count_append, count_headText hw hs ho hg h1 hp, count_int hw hm h2, count_word hw h3, Nat.add_zero]

theorem commas_matchTwoOp {f : Fields2} (h : matchTwoOp line = some f) : line.count (ch ',') = 1 := by
  obtain ⟨-, -, -, -, -, -, -, h2⟩ := (matchTwoOp_iff line f).mp h
  rw [count_matchTwoOp h wordChar_comma space_comma, count_val wordChar_comma (by decide) h2]
  decide

theorem commas_matchRrr {f : Fields3} (h : matchRrr line = some f) : line.count (ch ',') = 2 := by
  rw [count_matchRrr h wordChar_comma space_comma]
  decide

theorem commas_matchRri {f : Fields3} (h : matchRri line = some f) : line.count (ch ',') = 2 := by
  obtain ⟨-, -, -, -, -, -, -, -, -, -, h3⟩ := (matchRri_iff line f).mp h
  rw [count_matchRri h wordChar_comma space_comma, count_int wordChar_comma (by decide) h3]
  decide

theorem commas_matchRob {f : Fields3} (h : matchRob line = some f) : line.count (ch ',') = 1 := by
  rw [count_matchRob h wordChar_comma space_comma (by decide)]
  decide

theorem parens_matchTwoOp {f : Fields2} (h : matchTwoOp line = some f) : line.count (ch '(') = 0 := by
  obtain ⟨-, -, -, -, -, -, -, h2⟩ := (matchTwoOp_iff line f).mp h
  rw [count_matchTwoOp h wordChar_open space_open, count_val wordChar_open (by decide) h2]
  decide

theorem parens_matchRob {f : Fields3} (h : matchRob line = some f) : line.count (ch '(') = 1 := by
  rw [count_matchRob h wordChar_open space_open (by decide)]
  decide

/-- Where every match has `n` of a character in its line, a line with another number of them has no match. -/
theorem eq_none_of_count {α : Type} {m : Option α} {n : Nat} (hm : ∀ {f}, m = some f → line.count c = n)
    (hline : line.count c ≠ n) : m = none :=
  Option.eq_none_iff_forall_ne_some.mpr fun _ h => hline (hm h)

end counts

/-! ### Which patterns share a line (R87) -/

section overlaps
variable {line : Text}

theorem matchTwoOp_of_matchRl {f : Fields2} (h : matchRl line = some f) : matchTwoOp line = some f := by
  obtain ⟨g, pad, hline, ho, hg, h1, hp, h2⟩ := (matchRl_iff line f).mp h
  exact (matchTwoOp_iff line f).mpr ⟨g, pad, hline, ho, hg, h1, hp, val_of_word h2⟩

/-- An `INT` without a minus is a `WORD` (R87). -/
theorem isWord_of_int {t : Text} (h : isInt t = true) (hm : t.head? ≠ some (ch '-')) : isWord t = true := by
  rcases val_of_int h with hw | ⟨w, rfl, -⟩
  · exact hw
  · exact absurd rfl hm

theorem matchRrr_of_matchRri {f : Fields3} (h : matchRri line = some f) (hm : f.f3.head? ≠ some (ch '-')) :
    matchRrr line = some f := by
  obtain ⟨g, pad, pad', hline, ho, hg, h1, hp, h2, hp', h3⟩ := (matchRri_iff line f).mp h
  exact (matchRrr_iff line f).mpr ⟨g, pad, pad', hline, ho, hg, h1, hp, h2, hp', isWord_of_int h3 hm⟩

theorem matchRl_eq_none_of_matchTwoOp (h : matchTwoOp line = none) : matchRl line = none :=
  Option.eq_none_iff_forall_ne_some.mpr fun _ hf => by simp [matchTwoOp_of_matchRl hf] at h

/-- A line with one comma is no `RRR` and no `RRI` line, and a `2OP` line has no parenthesis. -/
theorem no_threeOperands_of_matchTwoOp {f : Fields2} (h : matchTwoOp line = some f) :
    matchRrr line = none ∧ matchRri line = none ∧ matchRob line = none := by
  have hc := commas_matchTwoOp h
  exact ⟨eq_none_of_count commas_matchRrr (by omega), eq_none_of_count commas_matchRri (by omega),
    eq_none_of_count parens_matchRob (by rw [parens_matchTwoOp h]; omega)⟩

/-- The second operand of a `2OP` line that begins with a minus is no `WORD`. -/
theorem matchRl_eq_none_of_minus {f : Fields2} (h : matchTwoOp line = some f) (hm : f.f2.head? = some (ch '-')) :
    matchRl line = none := by
  refine Option.eq_none_iff_forall_ne_some.mpr fun f' hf' => ?_
  obtain rfl : f' = f := by simpa [h] using (matchTwoOp_of_matchRl hf').symm
  have hw := ((isWord_iff _).mp (isWord_of_matchRl hf')).2 _ (List.mem_of_head? hm)
  rw [wordChar_minus] at hw; cases hw

/-- An `RRI` line whose third operand begins with a minus holds a character that no `RRR` line holds. -/
theorem matchRrr_eq_none_of_minus {f : Fields3} (h : matchRri line = some f) (hm : f.f3.head? = some (ch '-')) :
    matchRrr line = none := by
  have hpos : 0 < f.f3.count (ch '-') := List.count_pos_iff.mpr (List.mem_of_head? hm)
  refine eq_none_of_count (fun hf => count_matchRrr hf wordChar_minus space_minus) ?_
  rw [count_matchRri h wordChar_minus space_minus]
  omega

end overlaps

/-- Settles O23: a `WORD` is a `VAL`, an `INT` without a minus is a `WORD`, and a `LABEL` line has no comma. -/
theorem patternsOverlapAsRuled : Obligations.PatternsOverlapAsRuled := by
  refine fun line => ⟨fun f => matchTwoOp_of_matchRl, fun f => matchRrr_of_matchRri, fun name h => ?_⟩
  have hc := commas_matchLabel h
  have h2 : matchTwoOp line = none := eq_none_of_count commas_matchTwoOp (by omega)
  exact ⟨h2, eq_none_of_count commas_matchRrr (by omega), matchRl_eq_none_of_matchTwoOp h2,
    eq_none_of_count commas_matchRri (by omega), eq_none_of_count commas_matchRob (by omega)⟩

/-- Settles O58: the number of commas, of parentheses and of minus signs tells the patterns apart. -/
theorem noOtherTwoPatternsOverlap : Obligations.NoOtherTwoPatternsOverlap := by
  intro line
  refine ⟨fun h => ?_, fun f => matchRl_eq_none_of_minus, fun h => ?_, fun h => ?_, fun h => ?_,
    fun f => matchRrr_eq_none_of_minus⟩
  · obtain ⟨f, hf⟩ := Option.ne_none_iff_exists'.mp h
    exact no_threeOperands_of_matchTwoOp hf
  · obtain ⟨f, hf⟩ := Option.ne_none_iff_exists'.mp h
    exact no_threeOperands_of_matchTwoOp (matchTwoOp_of_matchRl hf)
  · obtain ⟨f, hf⟩ := Option.ne_none_iff_exists'.mp h
    exact eq_none_of_count commas_matchRob (by rw [commas_matchRrr hf]; omega)
  · obtain ⟨f, hf⟩ := Option.ne_none_iff_exists'.mp h
    exact eq_none_of_count commas_matchRob (by rw [commas_matchRri hf]; omega)

end Sys2Proof.Machine
end

section
/-! PROOFS of the statements about register names and immediate literals (`30_encoding.md` R70 to R76). -/

namespace Sys2Proof.Machine

/-! ### Immediate literals (R75, R76) -/

theorem immInRange_iff (i : Int) : immInRange i = true ↔ -2147483648 ≤ i ∧ i ≤ 2147483647 := by
  norm_num [immInRange, immBits]

/-- A token that denotes an integer is read if the integer is in the range. -/
theorem parseImm_of_int {tok : Text} (h : isInt tok = true) :
    parseImm tok = if immInRange (intValue tok) then some (intValue tok) else none := by
  simp only [parseImm, h, Bool.true_and]

theorem isInt_of_parseImm {tok : Text} {i : Int} (h : parseImm tok = some i) : isInt tok = true := by
  unfold parseImm at h
  split at h
  · next hc => exact (Bool.and_eq_true_iff.mp hc).1
  · cases h

theorem parseImm_intText (i : Int) : parseImm (intText i) = if immInRange i then some i else none := by
  rw [parseImm_of_int (isInt_intText i), intValue_intText]

/-- A run of digits denotes its decimal value: its first character is no minus. -/
theorem intValue_digits {ds : Text} (h : IsRun isDigit ds) : intValue ds = decimalValue ds := by
  cases ds with
  | nil => exact absurd rfl h.1
  | cons d ds =>
    have hd : d ≠ ch '-' := by
      rintro rfl
      simpa using h.2 (ch '-') (by simp)
    simp only [intValue, if_neg hd]

theorem intValue_minus (ds : Text) : intValue (ch '-' :: ds) = -(decimalValue ds : Int) := by
  simp only [intValue, if_true]

theorem decimalValue_zero_cons (ds : Text) : decimalValue (ch '0' :: ds) = decimalValue ds := by
  simp only [decimalValue, List.foldl_cons, show 0 * 10 + digitValue (ch '0') = 0 from by decide]

theorem IsRun.zero_cons {ds : Text} (h : IsRun isDigit ds) : IsRun isDigit (ch '0' :: ds) :=
  ⟨by simp, List.forall_mem_cons.mpr ⟨by decide, h.2⟩⟩

theorem parseImm_digits {ds : Text} (h : IsRun isDigit ds) :
    parseImm ds = if immInRange (decimalValue ds) then some (decimalValue ds : Int) else none := by
  rw [parseImm_of_int ((isInt_iff ds).mpr (.inl h)), intValue_digits h]

theorem parseImm_minus {ds : Text} (h : IsRun isDigit ds) :
    parseImm (ch '-' :: ds) = if immInRange (-decimalValue ds) then some (-decimalValue ds : Int) else none := by
  rw [parseImm_of_int ((isInt_iff _).mpr (.inr ⟨ds, rfl, h⟩)), intValue_minus]

/-- Settles O27: a literal is read by its value, and a leading zero leaves the value as it is. -/
theorem immediateLiteralsAreSignedDecimals : Obligations.ImmediateLiteralsAreSignedDecimals := by
  refine ⟨fun i => ?_, fun tok i h => ⟨isInt_of_parseImm h, (immInRange_iff i).mp (immInRange_of_parseImm h)⟩,
    fun ds hne hds => ?_, by decide⟩
  · simp only [parseImm_intText, immInRange_iff]
  · have h : IsRun isDigit ds := ⟨hne, hds⟩
    constructor
    · rw [parseImm_digits h.zero_cons, parseImm_digits h, decimalValue_zero_cons]
    · rw [parseImm_minus h.zero_cons, parseImm_minus h, decimalValue_zero_cons]

/-! ### Register names (R70 to R73) -/

/-- The names of the table that begin with the letter x are an x before a number of at most 27 (R71). -/
theorem decimalValue_of_x_name : ∀ e ∈ regNames, e.1.head? = some (ch 'x') → decimalValue e.1.tail ≤ 27 := by decide

theorem regResolve_x_of_le {n : Nat} (h : n ≤ 27) : regResolve (ch 'x' :: natText n) = some (Fin.ofNat 32 n) := by
  have hall : ∀ k : Fin 28, regResolve (ch 'x' :: natText k) = some (Fin.ofNat 32 k) := by decide
  exact hall ⟨n, by omega⟩

/-- Settles O25: a numeral past 27 would be the tail of a name in the table. -/
theorem numericNamesResolveToTheirNumber : Obligations.NumericNamesResolveToTheirNumber := by
  intro n
  split
  · next hn => exact regResolve_x_of_le hn
  · next hn =>
    refine Option.eq_none_iff_forall_ne_some.mpr fun i hi => hn ?_
    have hle := decimalValue_of_x_name _ (mem_regNames_of_resolve hi) rfl
    rwa [List.tail_cons, decimalValue_natText] at hle

theorem nodup_regNames : (regNames.map Prod.fst).Nodup := by decide

/-- Settles O26: the table is constant, so each name of the list is looked up in it. -/
theorem aliasNamesResolveAsListed : Obligations.AliasNamesResolveAsListed :=
  ⟨rfl, nodup_regNames, by decide⟩

end Sys2Proof.Machine
end

section
/-! PROOFS of the statements about the decoder (`30_encoding.md` R79 to R85, `40_decode_execute.md` R100 to R103): the outcomes
of a line, and the text the encoder writes. -/

namespace Sys2Proof.Machine

/-! ### The outcomes of a line with a known operator (R81 to R85, R103) -/

/-- The fields resolve to an instruction, or one of them raises its fault. -/
def ResolvesFields (fs : List Text) (x : Checked Instr) : Prop :=
  (∃ i, x = .ok i) ∨ ∃ tok ∈ fs, x = .raise (.unknownRegister tok) ∨ x = .raise (.invalidImmediate tok)

/-- The pattern `sh` with the fields `fs?` of its match, if there is one, decides the outcome. -/
def DecidedBy (sh : Shape) (fs? : Option (List Text)) (x : Checked Instr) : Prop :=
  (fs? = none → x = .raise (.shapeMismatch (formText sh))) ∧ ∀ fs, fs? = some fs → ResolvesFields fs x

theorem ResolvesFields.ok {fs : List Text} (i : Instr) : ResolvesFields fs (.ok i) := .inl ⟨i, rfl⟩

theorem ResolvesFields.reg {fs : List Text} {tok : Text} {k : RegIx → Checked Instr} (hmem : tok ∈ fs)
    (hk : ∀ i, ResolvesFields fs (k i)) : ResolvesFields fs ((resolveReg tok).andThen k) := by
  cases h : resolveReg tok with
  | ok i => exact hk i
  | raise e =>
    obtain ⟨-, rfl⟩ := resolveReg_raise.mp h
    exact .inr ⟨tok, hmem, .inl rfl⟩

theorem ResolvesFields.imm {fs : List Text} {tok : Text} {k : Int → Checked Instr} (hmem : tok ∈ fs)
    (hk : ∀ i, ResolvesFields fs (k i)) : ResolvesFields fs ((resolveImm tok).andThen k) := by
  cases h : resolveImm tok with
  | ok i => exact hk i
  | raise e =>
    obtain ⟨-, rfl⟩ := resolveImm_raise.mp h
    exact .inr ⟨tok, hmem, .inr rfl⟩

theorem DecidedBy.requireShape {α : Type} (sh : Shape) (m : Option α) {fields : α → List Text} {k : α → Checked Instr}
    (hk : ∀ f, ResolvesFields (fields f) (k f)) : DecidedBy sh (m.map fields) ((requireShape sh m).andThen k) := by
  cases m with
  | none => exact ⟨fun _ => rfl, nofun⟩
  | some f =>
    refine ⟨nofun, fun _ h => ?_⟩
    cases h
    exact hk f

theorem decidedBy_decodeRrr (mk : RegIx → RegIx → RegIx → Instr) (line : Text) :
    DecidedBy .rrr (fieldsOf .rrr line) (decodeRrr mk line) :=
  .requireShape _ _ fun _ => .reg (by simp) fun _ => .reg (by simp) fun _ => .reg (by simp) fun _ => .ok _

theorem decidedBy_decodeRri (mk : RegIx → RegIx → Int → Instr) (line : Text) :
    DecidedBy .rri (fieldsOf .rri line) (decodeRri mk line) :=
  .requireShape _ _ fun _ => .reg (by simp) fun _ => .reg (by simp) fun _ => .imm (by simp) fun _ => .ok _

theorem decidedBy_decodeRob (mk : RegIx → Int → RegIx → Instr) (line : Text) :
    DecidedBy .rob (fieldsOf .rob line) (decodeRob mk line) :=
  .requireShape _ _ fun _ => .reg (by simp) fun _ => .imm (by simp) fun _ => .reg (by simp) fun _ => .ok _

/-- A known operator's own pattern decides its line (R81). -/
theorem decidedBy_decodeAs (m : Mnemonic) (line : Text) :
    DecidedBy (shapeOf m) (fieldsOf (shapeOf m) line) (decodeAs m line) := by
  cases m with
  | mv => exact .requireShape _ _ fun _ => .reg (by simp) fun _ => .reg (by simp) fun _ => .ok _
  | li => exact .requireShape _ _ fun _ => .reg (by simp) fun _ => .imm (by simp) fun _ => .ok _
  | jal => exact .requireShape _ _ fun _ => .reg (by simp) fun _ => .ok _
  | lw | sw => exact decidedBy_decodeRob _ line
  | addi | subi | andi | ori | xori | slli | slri | jalr => exact decidedBy_decodeRri _ line
  | add | sub | mul | and | or | xor | sll | slr => exact decidedBy_decodeRrr _ line

theorem decode_of_matchLabel {line name : Text} (h : matchLabel line = some name) : decode line = .ok (.labelLine name) := by
  have hne : line ≠ [] := by
    rintro rfl
    cases h
  simp only [decode, if_neg hne, h]

theorem mnemonicOf_eq_none {tok : Text} (h : ∀ m, tok ≠ spelling m) : mnemonicOf tok = none :=
  Option.eq_none_iff_forall_ne_some.mpr fun m hm => h m (spelling_of_mnemonicOf hm).symm

theorem decode_of_unknown_operator {line : Text} (hl : line ≠ []) (hn : matchLabel line = none)
    (h : ∀ m, operatorOf line ≠ spelling m) : decode line = .raise (.unknownOperator (operatorOf line)) := by
  simp only [decode, if_neg hl, hn, mnemonicOf_eq_none h]

/-- Settles O21: the decoder asks for no line, a label line and a known operator in this order, and then for the pattern. -/
theorem everyLineHasOneDecodeOutcome : Obligations.EveryLineHasOneDecodeOutcome := by
  refine fun line => ⟨?_, fun name => decode_of_matchLabel, decode_of_unknown_operator, fun m _ _ hop => ?_⟩
  · rintro rfl
    rfl
  · rw [decode_of_spelling hop]
    exact decidedBy_decodeAs m line

/-- Settles O20: each field that resolved has a name, is in the range or is a `WORD`. -/
theorem decodedInstructionsAreWellFormed : Obligations.DecodedInstructionsAreWellFormed :=
  fun _ _ => wellFormed_of_decode

/-- Settles O12: without a line or with one that does not decode a step takes a fault, and every instruction has a meaning. -/
theorem aReadySessionAlwaysSteps : Obligations.AReadySessionAlwaysSteps := by
  intro s hr
  cases hl : s.lines[s.pc.toNat]? with
  | none => exact ⟨_, step_at_end hr hl⟩
  | some line =>
    cases hd : decode line with
    | raise f => exact ⟨_, step_of_decode_fault hr hl hd⟩
    | ok i =>
      obtain ⟨t, ht, -⟩ := exec_ends i s
      exact ⟨t, (step_of_decode hr hl hd).trans ht⟩

/-- Settles O18: the lines of the spec's vectors, run by the decoder. -/
theorem sampleLinesDecode : Obligations.SampleLinesDecode := by
  unfold Obligations.SampleLinesDecode
  decide

/-! ### Decoding the encoder's text (R60 to R82) -/

theorem isGap_space : IsGap (text " ") := by unfold IsGap; decide
theorem isPad_space : IsPad (text " ") := by unfold IsPad; decide

theorem matchTwoOp_line2 (m : Mnemonic) {f1 f2 : Text} (h1 : isWord f1 = true) (h2 : IsVal f2) :
    matchTwoOp (line2 m f1 f2) = some ⟨spelling m, f1, f2⟩ :=
  (matchTwoOp_iff _ _).mpr ⟨text " ", text " ", by simp [line2, headText, text], isWord_spelling m, isGap_space, h1,
    isPad_space, h2⟩

theorem matchRl_line2 (m : Mnemonic) {f1 f2 : Text} (h1 : isWord f1 = true) (h2 : isWord f2 = true) :
    matchRl (line2 m f1 f2) = some ⟨spelling m, f1, f2⟩ :=
  (matchRl_iff _ _).mpr ⟨text " ", text " ", by simp [line2, headText, text], isWord_spelling m, isGap_space, h1,
    isPad_space, h2⟩

theorem matchRrr_line3 (m : Mnemonic) {f1 f2 f3 : Text} (h1 : isWord f1 = true) (h2 : isWord f2 = true)
    (h3 : isWord f3 = true) : matchRrr (line3 m f1 f2 f3) = some ⟨spelling m, f1, f2, f3⟩ :=
  (matchRrr_iff _ _).mpr ⟨text " ", text " ", text " ", by simp [line3, headText, text], isWord_spelling m, isGap_space, h1,
    isPad_space, h2, isPad_space, h3⟩

theorem matchRri_line3 (m : Mnemonic) {f1 f2 f3 : Text} (h1 : isWord f1 = true) (h2 : isWord f2 = true)
    (h3 : isInt f3 = true) : matchRri (line3 m f1 f2 f3) = some ⟨spelling m, f1, f2, f3⟩ :=
  (matchRri_iff _ _).mpr ⟨text " ", text " ", text " ", by simp [line3, headText, text], isWord_spelling m, isGap_space, h1,
    isPad_space, h2, isPad_space, h3⟩

theorem matchRob_lineRob (m : Mnemonic) {f1 f2 f3 : Text} (h1 : isWord f1 = true) (h2 : isInt f2 = true)
    (h3 : isWord f3 = true) : matchRob (lineRob m f1 f2 f3) = some ⟨spelling m, f1, f2, f3⟩ :=
  (matchRob_iff _ _).mpr ⟨text " ", text " ", by simp [lineRob, headText, text], isWord_spelling m, isGap_space, h1,
    isPad_space, h2, h3⟩

/-- A register the encoder writes is read back. -/
theorem resolveReg_regName {i : RegIx} (h : regNameable i = true) : resolveReg (regName i) = .ok i :=
  resolveReg_ok.mpr (regResolve_regName i h)

/-- An immediate the encoder writes is read back. -/
theorem resolveImm_intText {i : Int} (h : immInRange i = true) : resolveImm (intText i) = .ok i :=
  resolveImm_ok.mpr ((parseImm_intText i).trans (if_pos h))

section roundTrip
variable {m : Mnemonic} {rd rs1 rs2 : RegIx} {imm : Int} (hd : regNameable rd = true)
include hd

theorem decode_line2_mv (h1 : regNameable rs1 = true) :
    decode (line2 .mv (regName rd) (regName rs1)) = .ok (.mv rd rs1) := by
  rw [decode_of_spelling (Laws.operatorOf_line2 _ _ _)]
  simp only [decodeAs, decodeMv, matchTwoOp_line2 _ (isWord_regName rd hd) (val_of_word (isWord_regName rs1 h1)),
    requireShape, Checked.andThen, resolveReg_regName hd, resolveReg_regName h1]

theorem decode_line2_li (hi : immInRange imm = true) :
    decode (line2 .li (regName rd) (intText imm)) = .ok (.li rd imm) := by
  rw [decode_of_spelling (Laws.operatorOf_line2 _ _ _)]
  simp only [decodeAs, decodeLi, matchTwoOp_line2 _ (isWord_regName rd hd) (val_of_int (isInt_intText imm)),
    requireShape, Checked.andThen, resolveReg_regName hd, resolveImm_intText hi]

theorem decode_line2_jal {label : Text} (hl : isWord label = true) :
    decode (line2 .jal (regName rd) label) = .ok (.jal rd label) := by
  rw [decode_of_spelling (Laws.operatorOf_line2 _ _ _)]
  simp only [decodeAs, decodeJal, matchRl_line2 _ (isWord_regName rd hd) hl, requireShape, Checked.andThen,
    resolveReg_regName hd]

theorem decode_line3_rrr {mk : RegIx → RegIx → RegIx → Instr} (hm : ∀ line, decodeAs m line = decodeRrr mk line)
    (h1 : regNameable rs1 = true) (h2 : regNameable rs2 = true) :
    decode (line3 m (regName rd) (regName rs1) (regName rs2)) = .ok (mk rd rs1 rs2) := by
  rw [decode_of_spelling (Laws.operatorOf_line3 _ _ _ _), hm]
  simp only [decodeRrr, matchRrr_line3 _ (isWord_regName rd hd) (isWord_regName rs1 h1) (isWord_regName rs2 h2), requireShape,
    Checked.andThen, resolveReg_regName hd, resolveReg_regName h1, resolveReg_regName h2]

theorem decode_line3_rri {mk : RegIx → RegIx → Int → Instr} (hm : ∀ line, decodeAs m line = decodeRri mk line)
    (h1 : regNameable rs1 = true) (hi : immInRange imm = true) :
    decode (line3 m (regName rd) (regName rs1) (intText imm)) = .ok (mk rd rs1 imm) := by
  rw [decode_of_spelling (Laws.operatorOf_line3 _ _ _ _), hm]
  simp only [decodeRri, matchRri_line3 _ (isWord_regName rd hd) (isWord_regName rs1 h1) (isInt_intText imm), requireShape,
    Checked.andThen, resolveReg_regName hd, resolveReg_regName h1, resolveImm_intText hi]

theorem decode_lineRob {mk : RegIx → Int → RegIx → Instr} (hm : ∀ line, decodeAs m line = decodeRob mk line)
    (hi : immInRange imm = true) (h1 : regNameable rs1 = true) :
    decode (lineRob m (regName rd) (intText imm) (regName rs1)) = .ok (mk rd imm rs1) := by
  rw [decode_of_spelling (Laws.operatorOf_lineRob _ _ _ _), hm]
  simp only [decodeRob, matchRob_lineRob _ (isWord_regName rd hd) (isInt_intText imm) (isWord_regName rs1 h1), requireShape,
    Checked.andThen, resolveReg_regName hd, resolveImm_intText hi, resolveReg_regName h1]

end roundTrip

/-- Settles O19: the text of each form matches that form's pattern with the fields the encoder wrote, and each field resolves
to what it was written from. -/
theorem decodeOfEncodeIsIdentity : Obligations.DecodeOfEncodeIsIdentity := by
  intro i hw
  cases i with
  | emptyLine => rfl
  | labelLine name => exact decode_of_matchLabel ((matchLabel_iff _ name).mpr ⟨hw, rfl⟩)
  | mv rd rs =>
    obtain ⟨hd, hs⟩ := Bool.and_eq_true_iff.mp hw
    exact decode_line2_mv hd hs
  | li rd imm =>
    obtain ⟨hd, hi⟩ := Bool.and_eq_true_iff.mp hw
    exact decode_line2_li hd hi
  | jal rd label =>
    obtain ⟨hd, hl⟩ := Bool.and_eq_true_iff.mp hw
    exact decode_line2_jal hd hl
  | lw r offs ra | sw r offs ra =>
    obtain ⟨hri, ha⟩ := Bool.and_eq_true_iff.mp hw
    obtain ⟨hr, hi⟩ := Bool.and_eq_true_iff.mp hri
    exact decode_lineRob hr (fun _ => rfl) hi ha
  | addi rd rs1 imm | subi rd rs1 imm | andi rd rs1 imm | ori rd rs1 imm | xori rd rs1 imm | slli rd rs1 imm | slri rd rs1 imm
  | jalr rd rs1 imm =>
    obtain ⟨hds, hi⟩ := Bool.and_eq_true_iff.mp hw
    obtain ⟨hd, h1⟩ := Bool.and_eq_true_iff.mp hds
    exact decode_line3_rri hd (fun _ => rfl) h1 hi
  | add rd rs1 rs2 | sub rd rs1 rs2 | mul rd rs1 rs2 | and rd rs1 rs2 | or rd rs1 rs2 | xor rd rs1 rs2 | sll rd rs1 rs2
  | slr rd rs1 rs2 =>
    obtain ⟨hds, h2⟩ := Bool.and_eq_true_iff.mp hw
    obtain ⟨hd, h1⟩ := Bool.and_eq_true_iff.mp hds
    exact decode_line3_rrr hd (fun _ => rfl) h1 h2

end Sys2Proof.Machine
end

section
/-! PROOFS of the statements about decoding and execution (`40_decode_execute.md` R100 to R113): the decode faults in the order
of the fields, one step by its line, arithmetic and shifts as integers, and the scanned label table. -/

namespace Sys2Proof.Machine

/-! ### The first failing field (R103, decision D13) -/

section fields
variable {tok line : Text} {m : Mnemonic} {f : Fields3} {e : FaultCause}
  {k : RegIx → Checked Instr} {kImm : Int → Checked Instr}

theorem raise_of_regResolve_none (h : regResolve tok = none) :
    (resolveReg tok).andThen k = .raise (.unknownRegister tok) := by
  rw [resolveReg_raise.mpr ⟨h, rfl⟩, Checked.andThen]

theorem raise_of_parseImm_none (h : parseImm tok = none) :
    (resolveImm tok).andThen kImm = .raise (.invalidImmediate tok) := by
  rw [resolveImm_raise.mpr ⟨h, rfl⟩, Checked.andThen]

/-- A register field that resolves leaves the outcome to the fields after it. -/
theorem raise_after_reg (h : regResolve tok ≠ none) (hk : ∀ i, k i = .raise e) :
    (resolveReg tok).andThen k = .raise e := by
  obtain ⟨i, hi⟩ := Option.ne_none_iff_exists'.mp h
  rw [resolveReg_ok.mpr hi, Checked.andThen, hk]

/-- An immediate field that resolves leaves the outcome to the fields after it. -/
theorem raise_after_imm (h : parseImm tok ≠ none) (hk : ∀ i, kImm i = .raise e) :
    (resolveImm tok).andThen kImm = .raise e := by
  obtain ⟨i, hi⟩ := Option.ne_none_iff_exists'.mp h
  rw [resolveImm_ok.mpr hi, Checked.andThen, hk]

/-- The fields of a line of three registers, in the order they are resolved (R82). -/
theorem decode_of_matchRrr (hop : operatorOf line = spelling m) (hsh : shapeOf m = .rrr) (hf : matchRrr line = some f) :
    ∃ mk : RegIx → RegIx → RegIx → Instr, decode line =
      (resolveReg f.f1).andThen fun rd => (resolveReg f.f2).andThen fun rs1 => (resolveReg f.f3).andThen fun rs2 =>
        .ok (mk rd rs1 rs2) := by
  obtain ⟨mk, hmk⟩ : ∃ mk, decodeAs m = decodeRrr mk := by
    cases m with
    | add | sub | mul | and | or | xor | sll | slr => exact ⟨_, rfl⟩
    | _ => cases hsh
  exact ⟨mk, by rw [decode_of_spelling hop, hmk, decodeRrr, requireShape_ok.mpr hf, Checked.andThen]⟩

/-- The fields of a line of two registers and an immediate, in the order they are resolved (R82). -/
theorem decode_of_matchRri (hop : operatorOf line = spelling m) (hsh : shapeOf m = .rri) (hf : matchRri line = some f) :
    ∃ mk : RegIx → RegIx → Int → Instr, decode line =
      (resolveReg f.f1).andThen fun rd => (resolveReg f.f2).andThen fun rs1 => (resolveImm f.f3).andThen fun imm =>
        .ok (mk rd rs1 imm) := by
  obtain ⟨mk, hmk⟩ : ∃ mk, decodeAs m = decodeRri mk := by
    cases m with
    | addi | subi | andi | ori | xori | slli | slri | jalr => exact ⟨_, rfl⟩
    | _ => cases hsh
  exact ⟨mk, by rw [decode_of_spelling hop, hmk, decodeRri, requireShape_ok.mpr hf, Checked.andThen]⟩

/-- The fields of a line of a register, an offset and a base register, in the order they are resolved (R82). -/
theorem decode_of_matchRob (hop : operatorOf line = spelling m) (hsh : shapeOf m = .rob) (hf : matchRob line = some f) :
    ∃ mk : RegIx → Int → RegIx → Instr, decode line =
      (resolveReg f.f1).andThen fun r => (resolveImm f.f2).andThen fun offs => (resolveReg f.f3).andThen fun ra =>
        .ok (mk r offs ra) := by
  obtain ⟨mk, hmk⟩ : ∃ mk, decodeAs m = decodeRob mk := by
    cases m with
    | lw | sw => exact ⟨_, rfl⟩
    | _ => cases hsh
  exact ⟨mk, by rw [decode_of_spelling hop, hmk, decodeRob, requireShape_ok.mpr hf, Checked.andThen]⟩

end fields

/-- Settles O22: each pattern resolves its fields one after another, and a field that resolves hands on to the next. -/
theorem theFirstFailingFieldDecides : Obligations.TheFirstFailingFieldDecides := by
  refine fun line f => ⟨fun m hop hsh hf => ?_, fun m hop hsh hf => ?_, fun m hop hsh hf => ?_⟩
  · obtain ⟨mk, hd⟩ := decode_of_matchRrr hop hsh hf
    rw [hd]
    exact ⟨raise_of_regResolve_none, fun h1 h2 => raise_after_reg h1 fun _ => raise_of_regResolve_none h2,
      fun h1 h2 h3 => raise_after_reg h1 fun _ => raise_after_reg h2 fun _ => raise_of_regResolve_none h3⟩
  · obtain ⟨mk, hd⟩ := decode_of_matchRri hop hsh hf
    rw [hd]
    exact ⟨raise_of_regResolve_none, fun h1 h2 => raise_after_reg h1 fun _ => raise_of_regResolve_none h2,
      fun h1 h2 h3 => raise_after_reg h1 fun _ => raise_after_reg h2 fun _ => raise_of_parseImm_none h3⟩
  · obtain ⟨mk, hd⟩ := decode_of_matchRob hop hsh hf
    rw [hd]
    exact ⟨raise_of_regResolve_none, fun h1 h2 => raise_after_reg h1 fun _ => raise_of_parseImm_none h2,
      fun h1 h2 h3 => raise_after_reg h1 fun _ => raise_after_imm h2 fun _ => raise_of_regResolve_none h3⟩

/-! ### One step by its line (R100, R198) -/

/-- Settles O28. -/
theorem stepRunsTheDecodedInstruction : Obligations.StepRunsTheDecodedInstruction := fun s hr =>
  ⟨fun _ _ hl hd => step_of_decode hr hl hd,
    fun _ f hl hd => ⟨_, step_of_decode_fault hr hl hd, takesFault_raiseFault f s⟩,
    fun hn => ⟨_, step_at_end hr hn, takesFault_raiseFault .endOfProgram s⟩⟩

/-! ### Lines with one register result (R26, R104) -/

/-- A line whose result is `v` leaves any `w` equal to it in `rd`. -/
theorem writeAndAdvance_writes {v w : Word} (s : State) (rd : RegIx) (h : v = w) :
    ∃ t, writeAndAdvance rd v s = .next t ∧ WritesRegister s t rd w (s.pc + 1) :=
  ⟨_, rfl, h ▸ writesRegister_complete s rd v (nextLine s)⟩

/-! ### Arithmetic on integers, modulo 2^32 (R6, R110, R112) -/

section arithmetic
variable (a b : Word) (i : Int)

theorem ofInt_sub (x y : Int) : BitVec.ofInt 32 (x - y) = BitVec.ofInt 32 x - BitVec.ofInt 32 y :=
  eq_sub_of_add_eq (by rw [← BitVec.ofInt_add, Int.sub_add_cancel])

theorem ofInt_toNat : BitVec.ofInt 32 a.toNat = a := by rw [BitVec.ofInt_natCast, BitVec.ofNat_toNat, BitVec.setWidth_eq]

theorem mul32_eq_ofNat : mul32 a b = BitVec.ofNat 32 (a.toNat * b.toNat) := BitVec.eq_of_toNat_eq (by simp [mul32])

theorem sub32_eq_ofInt : sub32 a b = BitVec.ofInt 32 (a.toNat - b.toNat) := by
  rw [ofInt_sub, ofInt_toNat, ofInt_toNat, sub32]

theorem add_to32_eq_ofInt : a + to32 i = BitVec.ofInt 32 (a.toNat + i) := by
  rw [BitVec.ofInt_add, ofInt_toNat, to32]

theorem sub32_to32_eq_ofInt : sub32 a (to32 i) = BitVec.ofInt 32 (a.toNat - i) := by
  rw [ofInt_sub, ofInt_toNat, sub32, to32]

end arithmetic

/-- The link value (R25, decision D12). -/
theorem nextLine_eq_ofNat (s : State) : nextLine s = BitVec.ofNat 32 (s.pc.toNat + 1) := BitVec.add_def s.pc 1

/-- Settles O30: each word operation is the integer operation modulo 2^32. -/
theorem arithmeticWrapsModuloTwoToThe32 : Obligations.ArithmeticWrapsModuloTwoToThe32 := by
  refine ⟨fun s rd _ _ => writeAndAdvance_writes s rd (BitVec.add_def _ _),
    fun s rd _ _ => writeAndAdvance_writes s rd (sub32_eq_ofInt _ _),
    fun s rd _ _ => writeAndAdvance_writes s rd (mul32_eq_ofNat _ _),
    fun s rd _ _ => writeAndAdvance_writes s rd (add_to32_eq_ofInt _ _),
    fun s rd _ _ => writeAndAdvance_writes s rd (sub32_to32_eq_ofInt _ _),
    fun s rd rs1 imm hne => ?_, fun s rd label p hp => ?_, fun s offs ra => add_to32_eq_ofInt _ offs⟩
  · have htarget : jalrTarget s rd rs1 imm = BitVec.ofInt 32 ((s.readReg rs1).toNat + imm) := by
      rw [jalrTarget_of_ne hne, ← add_to32_eq_ofInt, to32]
    rw [← nextLine_eq_ofNat, ← htarget]
    exact ⟨_, exec_jalr s rd rs1 imm, writesRegister_complete s rd _ _⟩
  · rw [← nextLine_eq_ofNat]
    exact ⟨_, exec_jal_of_lookup rd hp, writesRegister_complete s rd _ p⟩

/-! ### Shifts (R113, decision D10) -/

/-- A shift to the left multiplies by a power of two. -/
theorem shiftLeft_eq_ofNat (v a : Word) : shiftLeft v a = some (BitVec.ofNat 32 (v.toNat * 2 ^ (a.toNat % 32))) := by
  rw [shiftLeft_eq]
  exact congrArg some (BitVec.eq_of_toNat_eq (by simp [Nat.shiftLeft_eq]))

/-- A shift to the right divides by a power of two. -/
theorem shiftRight_eq_ofNat (v a : Word) : shiftRight v a = some (BitVec.ofNat 32 (v.toNat / 2 ^ (a.toNat % 32))) := by
  have hlt : v.toNat / 2 ^ (a.toNat % 32) < 2 ^ 32 := (Nat.div_le_self _ _).trans_lt v.isLt
  rw [shiftRight_eq]
  refine congrArg some (BitVec.eq_of_toNat_eq ?_)
  rw [BitVec.toNat_ofNat, Nat.mod_eq_of_lt hlt, BitVec.toNat_ushiftRight, Nat.shiftRight_eq_div_pow]

/-- The amount of an immediate shift: 32 divides 2^32, so the 32-bit value has the integer's remainder. -/
theorem to32_toNat_mod_32 (i : Int) : (to32 i).toNat % 32 = (i % 32).toNat := by
  rw [to32, BitVec.toNat_ofInt]
  omega

theorem writeShifted_writes {r : Option Word} {v : Word} (s : State) (rd : RegIx) (h : r = some v) :
    ∃ t, writeShifted rd r s = .next t ∧ WritesRegister s t rd v (s.pc + 1) := by
  rw [h]
  exact writeAndAdvance_writes s rd rfl

/-- Settles O32. -/
theorem shiftsAreLogicalByTheAmountModulo32 : Obligations.ShiftsAreLogicalByTheAmountModulo32 := by
  refine fun s rd rs1 => ⟨fun _ => writeShifted_writes s rd (shiftLeft_eq_ofNat _ _),
    fun _ => writeShifted_writes s rd (shiftRight_eq_ofNat _ _), fun imm => ?_, fun imm => ?_⟩
  · rw [← to32_toNat_mod_32]
    exact writeShifted_writes s rd (shiftLeft_eq_ofNat _ _)
  · rw [← to32_toNat_mod_32]
    exact writeShifted_writes s rd (shiftRight_eq_ofNat _ _)

/-! ### The label table of a program without duplicates (R106 to R108) -/

theorem nodup_of_firstRepeated_eq_none {names : List Text} (h : firstRepeated names = none) : names.Nodup := by
  induction names with
  | nil => exact List.nodup_nil
  | cons n rest ih =>
    unfold firstRepeated at h
    split at h
    · cases h
    · next hn => exact List.nodup_cons.mpr ⟨hn, ih h⟩

/-- In a program without duplicates a line does not define the name of a line before it. -/
theorem labelLine_ne_of_lt {lines : List Text} (hdup : duplicatedLabel lines = none) {j k : Nat} (hjk : j < k)
    {a b name : Text} (hj : lines[j]? = some a) (hk : lines[k]? = some b) (ha : matchLabel a = some name) :
    matchLabel b ≠ some name := by
  intro hb
  obtain ⟨hjl, rfl⟩ := List.getElem?_eq_some_iff.mp hj
  obtain ⟨hkl, rfl⟩ := List.getElem?_eq_some_iff.mp hk
  have hpair := List.pairwise_filterMap.mp (nodup_of_firstRepeated_eq_none hdup)
  exact List.pairwise_iff_getElem.mp hpair j k hjl hkl hjk name ha name hb rfl

/-- A name's label line is the only one where no name is defined twice (R108). -/
theorem labelLine_unique {lines : List Text} (hdup : duplicatedLabel lines = none) {j k : Nat} {name : Text}
    (hj : lines[j]?.bind matchLabel = some name) (hk : lines[k]?.bind matchLabel = some name) : j = k := by
  obtain ⟨a, hja, ha⟩ := Option.bind_eq_some_iff.mp hj
  obtain ⟨b, hkb, hb⟩ := Option.bind_eq_some_iff.mp hk
  rcases Nat.lt_trichotomy j k with h | h | h
  · exact absurd hb (labelLine_ne_of_lt hdup h hja hkb ha)
  · exact h
  · exact absurd ha (labelLine_ne_of_lt hdup h hkb hja hb)

theorem labelLookup_scan_eq_none_iff (lines : List Text) (name : Text) :
    labelLookup (scan lines) name = none ↔ ∀ line ∈ lines, matchLabel line ≠ some name := by
  rw [scan, labelLookup_scanFrom_eq_none_iff]
  exact and_iff_right rfl

/-- An entry of a program's table is the index of a line that defines the name (R106). -/
theorem labelLookup_scan_some {lines : List Text} {name : Text} {v : Word} (h : labelLookup (scan lines) name = some v) :
    ∃ j, j < lines.length ∧ v = BitVec.ofNat 32 j ∧ lines[j]?.bind matchLabel = some name := by
  rcases labelLookup_scanFrom_some lines 0 [] h with h | ⟨j, hj, hv, hm⟩
  · cases h
  · exact ⟨j, hj, by rw [hv, Nat.zero_add], hm⟩

theorem labelLookup_scan_ne_none {lines : List Text} {name : Text} {k : Nat} (h : lines[k]?.bind matchLabel = some name) :
    labelLookup (scan lines) name ≠ none := by
  obtain ⟨line, hl, hm⟩ := Option.bind_eq_some_iff.mp h
  exact fun hnone => (labelLookup_scan_eq_none_iff lines name).mp hnone line (List.mem_of_getElem? hl) hm

/-- Settles O53: every entry is a label line of its name, there is one wherever a line defines the name, and that line is the
only one. -/
theorem scanFindsEveryLabelLine : Obligations.ScanFindsEveryLabelLine := by
  refine fun lines hlen hdup => ⟨fun name k hk => ⟨fun h => ?_, fun h => ?_⟩, labelLookup_scan_eq_none_iff lines⟩
  · obtain ⟨j, hj, hv, hm⟩ := labelLookup_scan_some h
    have hkj : k % 2 ^ 32 = j % 2 ^ 32 := by simpa only [BitVec.toNat_ofNat] using congrArg BitVec.toNat hv
    rw [Nat.mod_eq_of_lt (hk.trans hlen), Nat.mod_eq_of_lt (hj.trans hlen)] at hkj
    rw [hkj, hm]
  · obtain ⟨v, hv⟩ := Option.ne_none_iff_exists'.mp (labelLookup_scan_ne_none h)
    obtain ⟨j, -, rfl, hm⟩ := labelLookup_scan_some hv
    rw [hv, labelLine_unique hdup hm h]

end Sys2Proof.Machine
end

section
/-! PROOFS of the statements about the move family (`41_move.md` R120, R121).  First the line rules every family shares: at a
line, each resolution of the decoder raises its fault or hands its value on. -/

namespace Sys2Proof.Machine

/-! ### Taking a line apart, one resolution after another (R81, R82, R103, decision D13) -/

section atLine
variable {s : State} {line tok : Text} (hat : AtLine s line)
include hat

theorem AtLine.stepFaults {f : FaultCause} (hd : decode line = .raise f) : StepFaults s f :=
  ⟨_, step_of_decode_fault hat.1 hat.2 hd, takesFault_raiseFault f s⟩

theorem AtLine.step_eq_exec {i : Instr} (hd : decode line = .ok i) : step s = exec i s :=
  step_of_decode hat.1 hat.2 hd

/-- The pattern comes first: it does not match and the step faults, or the outcome is that of its fields. -/
theorem AtLine.shape_rule {α : Type} {sh : Shape} {m : Option α} {k : α → Checked Instr} {P : α → Prop}
    (hd : decode line = (requireShape sh m).andThen k) (hk : ∀ f, decode line = k f → P f) :
    (m = none → StepFaults s (.shapeMismatch (formText sh))) ∧ ∀ f, m = some f → P f := by
  refine ⟨fun h => hat.stepFaults ?_, fun f h => hk f ?_⟩
  · rw [hd, requireShape_raise.mpr ⟨h, rfl⟩, Checked.andThen]
  · rw [hd, requireShape_ok.mpr h, Checked.andThen]

/-- A register field does not resolve and the step faults, or the outcome is that of the fields after it. -/
theorem AtLine.reg_rule {k : RegIx → Checked Instr} {P : RegIx → Prop}
    (hd : decode line = (resolveReg tok).andThen k) (hk : ∀ i, decode line = k i → P i) :
    (regResolve tok = none → StepFaults s (.unknownRegister tok)) ∧ ∀ i, regResolve tok = some i → P i := by
  refine ⟨fun h => hat.stepFaults (hd.trans (raise_of_regResolve_none h)), fun i h => hk i ?_⟩
  rw [hd, resolveReg_ok.mpr h, Checked.andThen]

/-- An immediate field does not resolve and the step faults, or the outcome is that of the fields after it. -/
theorem AtLine.imm_rule {k : Int → Checked Instr} {P : Int → Prop}
    (hd : decode line = (resolveImm tok).andThen k) (hk : ∀ i, decode line = k i → P i) :
    (parseImm tok = none → StepFaults s (.invalidImmediate tok)) ∧ ∀ i, parseImm tok = some i → P i := by
  refine ⟨fun h => hat.stepFaults (hd.trans (raise_of_parseImm_none h)), fun i h => hk i ?_⟩
  rw [hd, resolveImm_ok.mpr h, Checked.andThen]

end atLine

/-! ### The instructions and their lines (R120, R121) -/

theorem exec_mv_writes (s : State) (rd rs : RegIx) :
    ∃ t, exec (.mv rd rs) s = .next t ∧ WritesRegister s t rd (s.readReg rs) (s.pc + 1) := writeAndAdvance_writes s rd rfl

theorem exec_li_writes (s : State) (rd : RegIx) (imm : Int) :
    ∃ t, exec (.li rd imm) s = .next t ∧ WritesRegister s t rd (BitVec.ofInt 32 imm) (s.pc + 1) :=
  writeAndAdvance_writes s rd rfl

/-- Settles O29. -/
theorem moveAndLoadImmediateComplete : Obligations.MoveAndLoadImmediateComplete := ⟨exec_mv_writes, exec_li_writes⟩

/-- Settles O43: the decoder resolves the pattern, `f1` and `f2` in this order, and a line of which all three resolve is the
instruction. -/
theorem moveLinesFollowTheirRules : Obligations.MoveLinesFollowTheirRules := by
  refine fun s line hat => ⟨fun hop => ?_, fun hop => ?_⟩
  · have hd : decode line = decodeMv line := decode_of_spelling (m := .mv) hop
    refine hat.shape_rule hd fun f hd => hat.reg_rule hd fun rd hd => hat.reg_rule hd fun rs hd => ?_
    rw [hat.step_eq_exec hd]
    exact exec_mv_writes s rd rs
  · have hd : decode line = decodeLi line := decode_of_spelling (m := .li) hop
    refine hat.shape_rule hd fun f hd => hat.reg_rule hd fun rd hd => hat.imm_rule hd fun imm hd => ?_
    rw [hat.step_eq_exec hd]
    exact exec_li_writes s rd imm

end Sys2Proof.Machine
end

section
/-! PROOFS of the statements about the register-register family (`42_reg_reg.md` R130 to R137): the logical operators bit by
bit, and the line rules of three registers and of two registers and an immediate, each from what `exec` does. -/

namespace Sys2Proof.Machine

/-! ### Bit by bit (R12, R77, decision D9) -/

/-- The bits of an immediate in use are those of its two's complement: `-(n + 1)` is the complement of `n`. -/
theorem getLsbD_to32 (imm : Int) {i : Nat} (hi : i < 32) : (to32 imm).getLsbD i = imm.testBit i := by
  cases imm with
  | ofNat n => simp [to32, Int.testBit, hi, BitVec.getLsbD_ofNat, -BitVec.getLsbD_eq_getElem]
  | negSucc n => simp [to32, Int.testBit, hi, BitVec.getLsbD_ofNat, -BitVec.getLsbD_eq_getElem]

/-- A line whose result has the bits `p` leaves these in `rd`. -/
theorem writeAndAdvance_writes_bits {v : Word} {p : Nat → Bool} (s : State) (rd : RegIx)
    (h : ∀ i, i < 32 → v.getLsbD i = p i) :
    ∃ t w, writeAndAdvance rd v s = .next t ∧ WritesRegister s t rd w (s.pc + 1) ∧ ∀ i, i < 32 → w.getLsbD i = p i := by
  obtain ⟨t, ht, hw⟩ := writeAndAdvance_writes s rd (rfl : v = v)
  exact ⟨t, v, ht, hw, h⟩

/-- Settles O31: each result is a bitwise operation of the two words, and an immediate is such a word. -/
theorem logicalOperatorsWorkBitByBit : Obligations.LogicalOperatorsWorkBitByBit := by
  refine fun s rd rs1 => ⟨fun rs2 => writeAndAdvance_writes_bits s rd fun i _ => BitVec.getLsbD_and,
    fun rs2 => writeAndAdvance_writes_bits s rd fun i _ => BitVec.getLsbD_or,
    fun rs2 => writeAndAdvance_writes_bits s rd fun i _ => BitVec.getLsbD_xor,
    fun imm => writeAndAdvance_writes_bits s rd fun i hi => ?_,
    fun imm => writeAndAdvance_writes_bits s rd fun i hi => ?_,
    fun imm => writeAndAdvance_writes_bits s rd fun i hi => ?_⟩
  · rw [and32, BitVec.getLsbD_and, getLsbD_to32 imm hi]
  · rw [or32, BitVec.getLsbD_or, getLsbD_to32 imm hi]
  · rw [xor32, BitVec.getLsbD_xor, getLsbD_to32 imm hi]

/-! ### The rule of a line of three operands (R81, R82, R103) -/

/-- Two register fields and then one that faults in the case `bad` only: the first field that does not resolve decides. -/
theorem AtLine.twoRegs_rule {s : State} {line t1 t2 : Text} {k : RegIx → RegIx → Checked Instr} {bad Faults : Prop}
    {P : RegIx → RegIx → Prop} (hat : AtLine s line)
    (hd : decode line = (resolveReg t1).andThen fun rd => (resolveReg t2).andThen (k rd))
    (hk : ∀ rd rs1, decode line = k rd rs1 → (bad → Faults) ∧ P rd rs1) :
    (∀ rd rs1, regResolve t1 = some rd → regResolve t2 = some rs1 → P rd rs1) ∧
    (regResolve t1 = none ∨ regResolve t2 = none ∨ bad →
      (∃ tok, tok ∈ [t1, t2] ∧ regResolve tok = none ∧ StepFaults s (.unknownRegister tok)) ∨ (bad ∧ Faults)) := by
  obtain ⟨h1, hrd⟩ := hat.reg_rule hd fun rd hd => hat.reg_rule hd fun rs1 hd => hk rd rs1 hd
  refine ⟨fun rd rs1 e1 e2 => ((hrd rd e1).2 rs1 e2).2, fun hnone => ?_⟩
  cases e1 : regResolve t1 with
  | none => exact .inl ⟨t1, by simp, e1, h1 e1⟩
  | some rd =>
    obtain ⟨h2, hrs1⟩ := hrd rd e1
    cases e2 : regResolve t2 with
    | none => exact .inl ⟨t2, by simp, e2, h2 e2⟩
    | some rs1 =>
      have hbad : bad := by simpa [e1, e2] using hnone
      exact .inr ⟨hbad, (hrs1 rs1 e2).1 hbad⟩

section lineRules
variable {m : Mnemonic} {mkR : RegIx → RegIx → RegIx → Instr} {mkI : RegIx → RegIx → Int → Instr}

/-- The line of an operator of three registers, from what its instruction does. -/
theorem rrrLineRule_of_exec {result : Word → Word → Word → Prop} (hm : ∀ line, decodeAs m line = decodeRrr mkR line)
    (hexec : ∀ s rd rs1 rs2, ∃ t v, exec (mkR rd rs1 rs2) s = .next t ∧
      WritesRegister s t rd v (s.pc + 1) ∧ result (s.readReg rs1) (s.readReg rs2) v) : RrrLineRule (spelling m) result := by
  intro s line hat hop
  refine hat.shape_rule ((decode_of_spelling hop).trans (hm line)) fun f hd => ?_
  obtain ⟨hok, hfault⟩ := hat.twoRegs_rule hd fun rd rs1 hd => hat.reg_rule hd fun rs2 hd =>
    (hat.step_eq_exec hd).symm ▸ hexec s rd rs1 rs2
  refine ⟨fun rd rs1 rs2 e1 e2 e3 => (hok rd rs1 e1 e2 rs2 e3).imp fun _ ⟨v, ht, hw, hr⟩ => ⟨v, ht, hr, hw⟩, fun hnone => ?_⟩
  rcases hfault hnone with ⟨tok, hmem, htok⟩ | htok
  · exact ⟨tok, List.mem_append_left [f.f3] hmem, htok⟩
  · exact ⟨f.f3, by simp, htok⟩

theorem rrrLineRule_of_value {value : Word → Word → Word} (hm : ∀ line, decodeAs m line = decodeRrr mkR line)
    (hexec : ∀ s rd rs1 rs2, ∃ t, exec (mkR rd rs1 rs2) s = .next t ∧
      WritesRegister s t rd (value (s.readReg rs1) (s.readReg rs2)) (s.pc + 1)) :
    RrrLineRule (spelling m) fun a b v => v = value a b :=
  rrrLineRule_of_exec hm fun s rd rs1 rs2 => (hexec s rd rs1 rs2).imp fun _ ⟨ht, hw⟩ => ⟨_, ht, hw, rfl⟩

/-- The line of an operator of two registers and an immediate, from what its instruction does. -/
theorem rriLineRule_of_exec {result : Word → Int → Word → Prop} (hm : ∀ line, decodeAs m line = decodeRri mkI line)
    (hexec : ∀ s rd rs1 imm, ∃ t v, exec (mkI rd rs1 imm) s = .next t ∧
      WritesRegister s t rd v (s.pc + 1) ∧ result (s.readReg rs1) imm v) : RriLineRule (spelling m) result := by
  intro s line hat hop
  refine hat.shape_rule ((decode_of_spelling hop).trans (hm line)) fun f hd => ?_
  obtain ⟨hok, hfault⟩ := hat.twoRegs_rule hd fun rd rs1 hd => hat.imm_rule hd fun imm hd =>
    (hat.step_eq_exec hd).symm ▸ hexec s rd rs1 imm
  exact ⟨fun rd rs1 imm e1 e2 e3 => (hok rd rs1 e1 e2 imm e3).imp fun _ ⟨v, ht, hw, hr⟩ => ⟨v, ht, hr, hw⟩, hfault⟩

theorem rriLineRule_of_value {value : Word → Int → Word} (hm : ∀ line, decodeAs m line = decodeRri mkI line)
    (hexec : ∀ s rd rs1 imm, ∃ t, exec (mkI rd rs1 imm) s = .next t ∧
      WritesRegister s t rd (value (s.readReg rs1) imm) (s.pc + 1)) :
    RriLineRule (spelling m) fun a i v => v = value a i :=
  rriLineRule_of_exec hm fun s rd rs1 imm => (hexec s rd rs1 imm).imp fun _ ⟨ht, hw⟩ => ⟨_, ht, hw, rfl⟩

end lineRules

/-! ### The lines of the family (R130 to R137), and the immediate shifts (R145, R146) -/

/-- Settles O40: the line rule of three registers, with what O30 and O31 say of the six instructions. -/
theorem registerRegisterLinesFollowTheirRules : Obligations.RegisterRegisterLinesFollowTheirRules := by
  obtain ⟨hadd, hsub, hmul, -⟩ := arithmeticWrapsModuloTwoToThe32
  refine ⟨rrrLineRule_of_value (m := .add) (fun _ => rfl) hadd, rrrLineRule_of_value (m := .sub) (fun _ => rfl) hsub,
    rrrLineRule_of_value (m := .mul) (fun _ => rfl) hmul, rrrLineRule_of_exec (m := .and) (fun _ => rfl) fun s rd rs1 => ?_,
    rrrLineRule_of_exec (m := .or) (fun _ => rfl) fun s rd rs1 => ?_,
    rrrLineRule_of_exec (m := .xor) (fun _ => rfl) fun s rd rs1 => ?_⟩
  all_goals obtain ⟨hand, hor, hxor, -⟩ := logicalOperatorsWorkBitByBit s rd rs1
  · exact hand
  · exact hor
  · exact hxor

/-- Settles O42: the line rules with what O32 says of the four shifts. -/
theorem shiftLinesFollowTheirRules : Obligations.ShiftLinesFollowTheirRules := by
  refine ⟨rrrLineRule_of_value (m := .sll) (fun _ => rfl) fun s rd rs1 => ?_,
    rrrLineRule_of_value (m := .slr) (fun _ => rfl) fun s rd rs1 => ?_,
    rriLineRule_of_value (m := .slli) (fun _ => rfl) fun s rd rs1 => ?_,
    rriLineRule_of_value (m := .slri) (fun _ => rfl) fun s rd rs1 => ?_⟩
  all_goals obtain ⟨hsll, hslr, hslli, hslri⟩ := shiftsAreLogicalByTheAmountModulo32 s rd rs1
  · exact hsll
  · exact hslr
  · exact hslli
  · exact hslri

end Sys2Proof.Machine
end

section
/-! PROOFS of the statements about the register-immediate family (`43_reg_imm.md` R140 to R144). -/

namespace Sys2Proof.Machine

/-- Settles O41: the line rule of two registers and an immediate, with what O30 says of the sum and the difference and O31 of
the three bitwise operators. -/
theorem registerImmediateLinesFollowTheirRules : Obligations.RegisterImmediateLinesFollowTheirRules := by
  obtain ⟨-, -, -, haddi, hsubi, -⟩ := arithmeticWrapsModuloTwoToThe32
  refine ⟨rriLineRule_of_value (m := .addi) (fun _ => rfl) haddi, rriLineRule_of_value (m := .subi) (fun _ => rfl) hsubi,
    rriLineRule_of_exec (m := .andi) (fun _ => rfl) fun s rd rs1 => ?_,
    rriLineRule_of_exec (m := .ori) (fun _ => rfl) fun s rd rs1 => ?_,
    rriLineRule_of_exec (m := .xori) (fun _ => rfl) fun s rd rs1 => ?_⟩
  all_goals obtain ⟨-, -, -, handi, hori, hxori⟩ := logicalOperatorsWorkBitByBit s rd rs1
  · exact handi
  · exact hori
  · exact hxori

end Sys2Proof.Machine
end

section
/-! PROOFS of the statements about the control family (`44_control.md` R150, R151): what the two jumps do, and their lines. -/

namespace Sys2Proof.Machine

/-! ### The two jumps (R150, R151) -/

/-- Settles O33: the jump writes the link, and `pc_of_exec_jalr` says where it goes. -/
theorem jalrLinksAndJumps : Obligations.JalrLinksAndJumps := by
  refine fun s rd rs1 imm =>
    ⟨_, _, exec_jalr s rd rs1 imm, writesRegister_complete s rd _ _, fun hne => jalrTarget_of_ne hne s imm, fun _ => ?_⟩
  exact (pc_of_exec_jalr (exec_jalr s rd rs1 imm)).imp_right And.right

/-- Settles O34. -/
theorem jalLinksAndJumpsToItsLabel : Obligations.JalLinksAndJumpsToItsLabel := fun s rd _ =>
  ⟨fun p hp => ⟨_, exec_jal_of_lookup rd hp, writesRegister_complete s rd _ p⟩,
    fun hnone => ⟨_, exec_jal_of_absent rd hnone, takesFault_raiseFault _ s⟩⟩

/-! ### Their lines -/

/-- Settles O44: the decoder resolves the pattern and its fields in order, and a line of which all resolve does what O33 and
O34 say of its instruction. -/
theorem jumpLinesFollowTheirRules : Obligations.JumpLinesFollowTheirRules := by
  refine fun s line hat => ⟨fun hop => ?_, fun hop => ?_⟩
  · have hd : decode line = decodeRri .jalr line := decode_of_spelling (m := .jalr) hop
    refine hat.shape_rule hd fun f hd => hat.reg_rule hd fun rd hd => hat.reg_rule hd fun rs1 hd =>
      hat.imm_rule hd fun imm hd => ?_
    rw [hat.step_eq_exec hd]
    exact jalrLinksAndJumps s rd rs1 imm
  · have hd : decode line = decodeJal line := decode_of_spelling (m := .jal) hop
    refine hat.shape_rule hd fun f hd => hat.reg_rule hd fun rd hd => ?_
    rw [StepFaults, hat.step_eq_exec hd]
    exact (jalLinksAndJumpsToItsLabel s rd f.f2).symm

end Sys2Proof.Machine
end

section
/-! PROOFS of the statements about loads and stores (`45_load_store.md` R160 to R162): what the two instructions do at a legal
and at an illegal address, and their lines. -/

namespace Sys2Proof.Machine

/-! ### What completing a store leaves, in the terms of the statements (R161) -/

/-- Completing a line that left the registers and the session alone. -/
theorem writesNoRegister_complete {s u : State} (hregs : ∀ r, u.readReg r = s.readReg r) (hu : SameSession s u) (p : Word) :
    WritesNoRegister s (complete p u) p where
  zero := readReg_complete_zero u p
  others r h0 := by rw [readReg_complete, if_neg h0, hregs]
  pc := rfl
  session := ⟨hu.tags, hu.lines, hu.labels, hu.breakpoints, hu.status, hu.lastError⟩

theorem storesWord_of_mem_eq {s t : State} {ea v : Word} (hm : Memory.wf s.mem)
    (ht : t.mem = s.mem.setWordFrom ea.toNat v) : StoresWord s t ea v where
  stored k hk := by rw [ht, byteAt_setWordFrom_inside hm.1 _ v hk]
  others a ha := by rw [ht, byteAt_setWordFrom_outside hm.1 v ha]

theorem exec_sw_of_raise {s : State} {rs : RegIx} {offs : Int} {ra : RegIx} {f : FaultCause}
    (h : memWrite s.mem (effectiveAddress s offs ra) (s.readReg rs) = .raise f) :
    exec (.sw rs offs ra) s = .next (raiseFault f s) := by
  simp only [exec, execSw, h]

/-! ### The two instructions (R160, R161) -/

/-- Settles O35. -/
theorem loadWordReadsTheAddressedWord : Obligations.LoadWordReadsTheAddressedWord := by
  intro s rd offs ra hea
  have hread := memRead_of_legal s.mem hea
  exact ⟨_, _, exec_lw_of_ok rd hread, writesRegister_complete s rd _ _, hread, fun k hk => byteOfWord_wordFrom _ _ k hk⟩

/-- Settles O36. -/
theorem storeWordWritesOnlyTheAddressedWord : Obligations.StoreWordWritesOnlyTheAddressedWord := by
  intro s rs offs ra hm hea
  have hwrite := memWrite_of_legal s.mem hea (s.readReg rs)
  exact ⟨_, exec_sw_of_ok hwrite, writesNoRegister_complete (fun r => setMem_readReg s r _) (sameSession_setMem s _) _,
    storesWord_of_mem_eq hm rfl⟩

/-- Settles O37: the accessor raises the fault, and both instructions take it before they write anything. -/
theorem illegalAccessesFaultAndChangeNothing : Obligations.IllegalAccessesFaultAndChangeNothing := by
  refine fun s r offs ra => ⟨fun h => ⟨?_, ?_⟩, fun h hb => ⟨?_, ?_⟩⟩
  · exact ⟨_, exec_lw_of_raise (memRead_of_misaligned s.mem h), takesFault_raiseFault _ s⟩
  · exact ⟨_, exec_sw_of_raise (memWrite_of_misaligned s.mem h _), takesFault_raiseFault _ s⟩
  · exact ⟨_, exec_lw_of_raise (memRead_of_outOfBounds s.mem h hb), takesFault_raiseFault _ s⟩
  · exact ⟨_, exec_sw_of_raise (memWrite_of_outOfBounds s.mem h hb _), takesFault_raiseFault _ s⟩

/-! ### Their lines -/

/-- A line of the family is resolved as a register, an offset and a base, and its operator says which instruction they make
(R82). -/
theorem decode_load_or_store {line : Text} (hop : operatorOf line = text "LW" ∨ operatorOf line = text "SW") :
    ∃ mk : RegIx → Int → RegIx → Instr, decode line = decodeRob mk line ∧
      (operatorOf line = text "LW" ∧ mk = .lw ∨ operatorOf line = text "SW" ∧ mk = .sw) := by
  rcases hop with hop | hop
  · exact ⟨.lw, decode_of_spelling (m := .lw) hop, .inl ⟨hop, rfl⟩⟩
  · exact ⟨.sw, decode_of_spelling (m := .sw) hop, .inr ⟨hop, rfl⟩⟩

/-- Settles O45: the decoder resolves the pattern, the register, the offset and the base in this order, and a line of which all
resolve does what O35, O36 and O37 say of its instruction. -/
theorem loadAndStoreLinesFollowTheirRules : Obligations.LoadAndStoreLinesFollowTheirRules := by
  intro s line hat hm hop
  have hne : text "LW" ≠ text "SW" := by decide
  obtain ⟨mk, hd, hmk⟩ := decode_load_or_store hop
  refine hat.shape_rule hd fun f hd => hat.reg_rule hd fun r hd => hat.imm_rule hd fun offs hd => ?_
  obtain ⟨hbase, hstep⟩ := hat.reg_rule hd fun ra hd => hat.step_eq_exec (i := mk r offs ra) hd
  refine ⟨hbase, fun ra ea hra hea => ?_⟩
  obtain rfl : ea = effectiveAddress s offs ra := hea
  obtain ⟨hmisaligned, houtside⟩ := illegalAccessesFaultAndChangeNothing s r offs ra
  rw [StepFaults, StepFaults, hstep ra hra]
  rcases hmk with ⟨hlw, rfl⟩ | ⟨hsw, rfl⟩
  · refine ⟨fun h => (hmisaligned h).1, fun h hb => (houtside h hb).1, fun h => ⟨fun _ => ?_, fun hsw => ?_⟩⟩
    · obtain ⟨t, w, ht, hw, _, hbytes⟩ := loadWordReadsTheAddressedWord s r offs ra h
      exact ⟨t, w, ht, hw, hbytes⟩
    · exact absurd (hlw.symm.trans hsw) hne
  · refine ⟨fun h => (hmisaligned h).2, fun h hb => (houtside h hb).2, fun h => ⟨fun hlw => ?_, fun _ => ?_⟩⟩
    · exact absurd (hlw.symm.trans hsw) hne
    · exact storeWordWritesOnlyTheAddressedWord s r offs ra hm h

end Sys2Proof.Machine
end

section
/-! PROOFS of the statements about the lines with the empty operator and with an unknown one (`46_noop.md` R170 to R172). -/

namespace Sys2Proof.Machine

/-! ### The default advance alone (R26, R170, R171) -/

/-- What both no-op instructions do. -/
theorem advanceOnly_advances (s : State) :
    ∃ t, advanceOnly s = .next t ∧ WritesNoRegister s t (s.pc + 1) ∧ ∀ a, t.mem.byteAt a = s.mem.byteAt a :=
  ⟨_, rfl, writesNoRegister_complete (fun _ => rfl) ⟨rfl, rfl, rfl, rfl, rfl, rfl⟩ _, fun _ => rfl⟩

theorem exec_labelLine (name : Text) (s : State) : exec (.labelLine name) s = advanceOnly s := rfl

theorem exec_emptyLine (s : State) : exec .emptyLine s = advanceOnly s := rfl

/-- The lines whose instruction is a no-op. -/
theorem exec_decode_of_noOp {line : Text} (h : line = [] ∨ ∃ name, matchLabel line = some name) :
    ∃ i, decode line = .ok i ∧ ∀ s, exec i s = advanceOnly s := by
  rcases h with rfl | ⟨name, hname⟩
  · exact ⟨.emptyLine, rfl, exec_emptyLine⟩
  · exact ⟨.labelLine name, decode_of_matchLabel hname, exec_labelLine name⟩

/-! ### The first attempt of a batch (R199, R200) -/

/-- A batch whose first step leaves the session `Ready` has counted one line and goes on from there. -/
theorem AtLine.runAmount_succ {s t : State} {line : Text} (hat : AtLine s line) (hstep : step s = .next t)
    (ht : t.status = .ready) (n : Nat) : runAmount (n + 1) s = runBatch false n t := by
  obtain ⟨hr, hl⟩ := hat
  have hexec : execute line s = .next t := (step_eq_execute hr hl).symm.trans hstep
  simp only [runAmount, hr, runBatch_line (first := true) hl rfl hexec, ht]

/-! ### The statements -/

/-- Settles O39: both instructions are the default advance, the decoder gives one of them at every such line, and the session
is still `Ready` after it, so that a batch goes on. -/
theorem noOpLinesOnlyAdvance : Obligations.NoOpLinesOnlyAdvance := by
  refine ⟨fun s _ => advanceOnly_advances s, rfl, advanceOnly_advances, fun s line hat hline => ?_⟩
  obtain ⟨i, hd, hi⟩ := exec_decode_of_noOp hline
  obtain ⟨t, ht, hw, hmem⟩ := advanceOnly_advances s
  have hstep : step s = .next t := (hat.step_eq_exec hd).trans ((hi s).trans ht)
  exact ⟨t, hstep, hw, hmem, hat.runAmount_succ hstep (hw.session.status.trans hat.1)⟩

/-- Settles O46: such a line does not decode, whatever follows its operator. -/
theorem unknownOperatorLinesFault : Obligations.UnknownOperatorLinesFault :=
  fun _ _ hat hne hlabel hop => hat.stepFaults (decode_of_unknown_operator hne hlabel hop)

end Sys2Proof.Machine
end

section
/-! PROOFS of the statements about faults and the host operations (`60_exceptions.md` R188 to R206): the fault of a step, one
attempt of a batch and the course of a whole one, the breakpoint set, program load, readback. -/

namespace Sys2Proof.Machine

/-! ### The fault of a step (R188, R192 to R195, R198) -/

theorem ResolvesFields.ne_endOfProgram {fs : List Text} {x : Checked Instr} (h : ResolvesFields fs x) :
    x ≠ .raise .endOfProgram := by
  obtain ⟨i, rfl⟩ | ⟨tok, -, rfl | rfl⟩ := h <;> nofun

theorem DecidedBy.ne_endOfProgram {sh : Shape} {fs? : Option (List Text)} {x : Checked Instr} (h : DecidedBy sh fs? x) :
    x ≠ .raise .endOfProgram := by
  cases fs? with
  | none => rw [h.1 rfl]; nofun
  | some fs => exact (h.2 fs rfl).ne_endOfProgram

/-- The decoder raises one of the first four faults only (R103, R188). -/
theorem decode_ne_endOfProgram (line : Text) : decode line ≠ .raise .endOfProgram := by
  unfold decode
  split
  · nofun
  split
  · nofun
  split
  · nofun
  · exact (decidedBy_decodeAs _ line).ne_endOfProgram

/-- A line that ends otherwise than `Ready` took a fault of its own. -/
theorem Ends.fault_of_not_ready {i : Instr} {s t : State} (hends : Ends i s t) (hr : s.status = .ready)
    (ht : t.status ≠ .ready) : ∃ f, f ≠ .endOfProgram ∧ t = raiseFault f s := by
  cases hends with
  | fault f hf => exact ⟨f, hf, rfl⟩
  | register | plain | store => exact absurd hr ht

/-- The fault a step takes is `EndOfProgram` exactly where there is no line (R198). -/
theorem fault_of_step {s t : State} (h : step s = .next t) (ht : t.status ≠ .ready) :
    ∃ f, t = raiseFault f s ∧ (f = .endOfProgram ↔ s.lines[s.pc.toNat]? = none) := by
  obtain ⟨hr, ⟨hl, rfl⟩ | ⟨line, hl, ⟨f, hf, rfl⟩ | ⟨i, -, -, hends⟩⟩⟩ := step_cases h
  · exact ⟨_, rfl, by simp [hl]⟩
  · have hne : f ≠ .endOfProgram := by rintro rfl; exact decode_ne_endOfProgram line hf
    exact ⟨f, rfl, by simp [hl, hne]⟩
  · obtain ⟨f, hne, rfl⟩ := hends.fault_of_not_ready hr ht
    exact ⟨f, rfl, by simp [hl, hne]⟩

/-- Settles O10: such a step took a fault and did nothing else. -/
theorem faultsAreTakenBeforeAnyChange : Obligations.FaultsAreTakenBeforeAnyChange := by
  intro s t h ht
  obtain ⟨f, rfl⟩ := eq_raiseFault_of_not_ready h ht
  exact ⟨fun _ => rfl, rfl, fun _ => rfl, rfl, rfl, rfl, rfl⟩

/-- Settles O11, with the fault the step took. -/
theorem faultRecordNamesCauseLineAndText : Obligations.FaultRecordNamesCauseLineAndText := by
  intro s t h ht
  obtain ⟨f, rfl, hf⟩ := fault_of_step h ht
  exact ⟨f, takesFault_raiseFault f s, hf, rfl⟩

/-- Settles O13. -/
theorem aHaltedSessionHasNoStep : Obligations.AHaltedSessionHasNoStep :=
  fun _ _ h => ⟨step_halted h, fun _ => by simp only [runAmount, h]⟩

/-! ### One attempt of a batch (R199 to R201, decisions D19, D20) -/

/-- The attempt performs a step: the first one of a batch always does, a later one if it finds a line that is no breakpoint. -/
def PerformsStep (first : Bool) (s : State) : Prop :=
  first = true ∨ s.pc.toNat < s.lines.length ∧ s.pc ∉ s.breakpoints

/-- An attempt that performs no step ends the batch with success, as does having none left. -/
theorem runBatch_of_stop {first : Bool} {s : State} (h : ¬ PerformsStep first s) (n : Nat) :
    runBatch first n s = .next (true, s) := by
  obtain ⟨hfirst, hstop⟩ := not_or.mp h
  cases n with
  | zero => rfl
  | succ n =>
    cases hl : s.lines[s.pc.toNat]? with
    | none => simp [runBatch, fetch, hl, hfirst]
    | some line =>
      have hb : s.pc ∈ s.breakpoints := by
        obtain ⟨hlt, -⟩ := List.getElem?_eq_some_iff.mp hl
        exact not_not.mp fun hb => hstop ⟨hlt, hb⟩
      simp [runBatch, fetch, hl, hfirst, hb]

/-- An attempt that performs a step: the batch goes on, or ends with failure if the step took a fault. -/
theorem runBatch_of_step {first : Bool} {s t : State} (hp : PerformsStep first s) (h : step s = .next t) (n : Nat) :
    (t.status = .ready → runBatch first (n + 1) s = runBatch false n t) ∧
    (t.status ≠ .ready → runBatch first (n + 1) s = .next (false, t)) := by
  obtain ⟨hr, -⟩ := step_cases h
  cases hl : s.lines[s.pc.toNat]? with
  | none =>
    have hfirst : first = true :=
      hp.resolve_right fun ⟨hlt, _⟩ => absurd hlt (Nat.not_lt.mpr (List.getElem?_eq_none_iff.mp hl))
    rw [step_at_end hr hl] at h
    cases h
    simp [runBatch, fetch, hl, hfirst]
  | some line =>
    have hb : (!first && decide (s.pc ∈ s.breakpoints)) = false := by
      rcases hp with hfirst | ⟨-, hb⟩
      · simp [hfirst]
      · simp [hb]
    rw [runBatch_line hl hb ((step_eq_execute hr hl).symm.trans h)]
    cases t.status <;> simp

theorem runAmount_of_ready {s : State} (hr : s.status = .ready) (n : Nat) : runAmount n s = runBatch true n s := by
  simp only [runAmount, hr]

/-- `runBatch_of_step` for the first attempt of a `runAmount`. -/
theorem runAmount_of_step {s t : State} (h : step s = .next t) (n : Nat) :
    (t.status = .ready → runAmount (n + 1) s = runBatch false n t) ∧
    (t.status ≠ .ready → runAmount (n + 1) s = .next (false, t)) := by
  rw [runAmount_of_ready (step_cases h).1]
  exact runBatch_of_step (.inl rfl) h n

/-! ### The course of a whole batch (R199) -/

/-- The ways a batch of at most `n` attempts goes from a state to the flag and the state it ends with. -/
inductive BatchRun : Bool → Nat → State → Bool → State → Prop
  | spent {first : Bool} {s : State} : BatchRun first 0 s true s
  | stop {first : Bool} {n : Nat} {s : State} (hp : ¬ PerformsStep first s) : BatchRun first (n + 1) s true s
  | fail {first : Bool} {n : Nat} {s t : State} (hp : PerformsStep first s) (h : step s = .next t)
      (ht : t.status ≠ .ready) : BatchRun first (n + 1) s false t
  | goOn {first : Bool} {n : Nat} {s u : State} {b : Bool} {t : State} (hp : PerformsStep first s) (h : step s = .next u)
      (hu : u.status = .ready) (rest : BatchRun false n u b t) : BatchRun first (n + 1) s b t

/-- Every batch from `Ready` answers, in one of these ways. -/
theorem runBatch_answers (n : Nat) : ∀ (first : Bool) (s : State), s.status = .ready →
    ∃ b t, runBatch first n s = .next (b, t) ∧ BatchRun first n s b t := by
  induction n with
  | zero => exact fun _ s _ => ⟨true, s, rfl, .spent⟩
  | succ n ih =>
    intro first s hr
    by_cases hp : PerformsStep first s
    · obtain ⟨u, hu⟩ := aReadySessionAlwaysSteps s hr
      obtain ⟨hon, hfail⟩ := runBatch_of_step hp hu n
      by_cases hur : u.status = .ready
      · obtain ⟨b, t, he, hrun⟩ := ih false u hur
        exact ⟨b, t, (hon hur).trans he, .goOn hp hu hur hrun⟩
      · exact ⟨false, u, hfail hur, .fail hp hu hur⟩
    · exact ⟨true, s, runBatch_of_stop hp _, .stop hp⟩

/-- The inversion of `runAmount`. -/
theorem batchRun_of_runAmount {n : Nat} {s t : State} {b : Bool} (h : runAmount n s = .next (b, t)) :
    s.status = .ready ∧ BatchRun true n s b t := by
  cases hr : s.status with
  | halted r => rw [(aHaltedSessionHasNoStep s r hr).2 n] at h; cases h
  | ready =>
    obtain ⟨c, u, hu, hrun⟩ := runBatch_answers n true s hr
    rw [runAmount_of_ready hr, hu] at h
    cases h
    exact ⟨rfl, hrun⟩

/-- The success flag tells the status (R199). -/
theorem BatchRun.flag_iff {first b : Bool} {n : Nat} {s t : State} (hrun : BatchRun first n s b t) (hr : s.status = .ready) :
    b = true ↔ t.status = .ready := by
  induction hrun with
  | spent | stop => simp [hr]
  | fail _ _ ht => simp [ht]
  | goOn _ _ hu _ ih => exact ih hu

/-- A batch is at most as many steps as it has attempts (R199, R200). -/
theorem BatchRun.runSteps {first b : Bool} {n : Nat} {s t : State} (hrun : BatchRun first n s b t) :
    ∃ k, k ≤ n ∧ runSteps k s = .next t := by
  induction hrun with
  | spent | stop => exact ⟨0, Nat.zero_le _, rfl⟩
  | fail _ h => exact ⟨1, Nat.succ_pos _, runSteps_succ h⟩
  | goOn _ h _ _ ih =>
    obtain ⟨k, hk, hsteps⟩ := ih
    exact ⟨k + 1, Nat.succ_le_succ hk, (runSteps_succ h).trans hsteps⟩

/-- Repeated steps that leave the session `Ready` began with a `Ready` one (R195). -/
theorem ready_of_runSteps {n : Nat} {s t : State} (h : runSteps n s = .next t) (ht : t.status = .ready) :
    s.status = .ready := by
  cases n with
  | zero => cases h; exact ht
  | succ n =>
    cases hs : s.status with
    | ready => rfl
    | halted r => simp [runSteps, step_halted hs] at h

/-- Good steps that meet no breakpoint are a batch of that many attempts; where the batch begins does not matter (R199, D20). -/
theorem runBatch_of_runSteps {bs : List Word} {t : State} (ht : t.status = .ready) (n : Nat) :
    ∀ (first : Bool) (s : State), s.breakpoints = bs →
      (∀ k u, (first = true → 0 < k) → k < n → runSteps k s = .next u → u.pc ∉ bs) →
      runSteps n s = .next t → runBatch first n s = .next (true, t) := by
  induction n with
  | zero => intro _ s _ _ h; cases h; rfl
  | succ n ih =>
    intro first s hbs hfree h
    obtain ⟨u, hu⟩ := aReadySessionAlwaysSteps s (ready_of_runSteps h ht)
    rw [runSteps_succ hu] at h
    have hur : u.status = .ready := ready_of_runSteps h ht
    have hp : PerformsStep first s := by
      obtain ⟨line, i, hl, -⟩ := exec_of_ready hu hur
      obtain ⟨hlt, -⟩ := List.getElem?_eq_some_iff.mp hl
      cases first with
      | true => exact .inl rfl
      | false => exact .inr ⟨hlt, hbs ▸ hfree 0 s nofun n.succ_pos rfl⟩
    rw [(runBatch_of_step hp hu n).1 hur]
    obtain ⟨-, -, -, hub⟩ := step_keeps hu
    exact ih false u (hub.trans hbs)
      (fun k v _ hk hv => hfree (k + 1) v (fun _ => k.succ_pos) (Nat.succ_lt_succ hk) ((runSteps_succ hu).trans hv)) h

/-! ### Another breakpoint set (R200, R205) -/

/-- The state with another breakpoint set. -/
def withBreakpoints (bs : List Word) (s : State) : State := { s with breakpoints := bs }

theorem addBreakpoint_eq (k : Word) (s : State) : addBreakpoint k s = withBreakpoints (insertIndex k s.breakpoints) s := rfl

/-- No instruction reads or changes the breakpoints: the case split is over the outcomes that depend on the state. -/
theorem exec_withBreakpoints (bs : List Word) (i : Instr) (s : State) :
    exec i (withBreakpoints bs s) = mapNext (withBreakpoints bs) (exec i s) := by
  cases i with
  | jal rd label =>
    cases h : labelLookup s.labels label with
    | none => rw [exec_jal_of_absent rd h, exec_jal_of_absent (s := withBreakpoints bs s) rd h]; rfl
    | some p => rw [exec_jal_of_lookup rd h, exec_jal_of_lookup (s := withBreakpoints bs s) rd h]; rfl
  | lw rd offs ra =>
    cases h : memRead s.mem (effectiveAddress s offs ra) with
    | ok w => rw [exec_lw_of_ok rd h, exec_lw_of_ok (s := withBreakpoints bs s) rd h]; rfl
    | raise f => rw [exec_lw_of_raise h, exec_lw_of_raise (s := withBreakpoints bs s) h]; rfl
  | sw rs offs ra =>
    cases h : memWrite s.mem (effectiveAddress s offs ra) (s.readReg rs) with
    | ok m => rw [exec_sw_of_ok h, exec_sw_of_ok (s := withBreakpoints bs s) h]; rfl
    | raise f => rw [exec_sw_of_raise h, exec_sw_of_raise (s := withBreakpoints bs s) h]; rfl
  | sll rd rs1 rs2 | slr rd rs1 rs2 | slli rd rs1 imm | slri rd rs1 imm =>
    simp only [exec, execSll, execSlr, execSlli, execSlri, shiftLeft_eq, shiftRight_eq]
    rfl
  | _ => rfl

theorem step_withBreakpoints {s t : State} (h : step s = .next t) (bs : List Word) :
    step (withBreakpoints bs s) = .next (withBreakpoints bs t) := by
  obtain ⟨hr, ⟨hl, rfl⟩ | ⟨line, hl, ⟨f, hf, rfl⟩ | ⟨i, hi, he, -⟩⟩⟩ := step_cases h
  · exact step_at_end (s := withBreakpoints bs s) hr hl
  · exact step_of_decode_fault (s := withBreakpoints bs s) hr hl hf
  · rw [step_of_decode (s := withBreakpoints bs s) hr hl hi, exec_withBreakpoints, he, mapNext]

theorem step_addBreakpoint {s t : State} (h : step s = .next t) (k : Word) :
    step (addBreakpoint k s) = .next (addBreakpoint k t) := by
  obtain ⟨-, -, -, hb⟩ := step_keeps h
  rw [addBreakpoint_eq, addBreakpoint_eq, hb]
  exact step_withBreakpoints h _

/-- A breakpoint past the program is at no line an attempt could find. -/
theorem performsStep_addBreakpoint {s : State} {k : Word} (hk : s.lines.length ≤ k.toNat) (first : Bool) :
    PerformsStep first (addBreakpoint k s) ↔ PerformsStep first s := by
  refine or_congr_right (and_congr_right fun hlt => ?_)
  have hne : s.pc ≠ k := by
    rintro rfl
    exact absurd hlt (Nat.not_lt.mpr hk)
  change s.pc ∉ insertIndex k s.breakpoints ↔ s.pc ∉ s.breakpoints
  rw [mem_insertIndex, not_or, and_iff_right hne]

/-- A batch goes the same way with a breakpoint past the program. -/
theorem BatchRun.addBreakpoint {first b : Bool} {n : Nat} {s t : State} {k : Word} (hrun : BatchRun first n s b t)
    (hk : s.lines.length ≤ k.toNat) : runBatch first n (addBreakpoint k s) = .next (b, addBreakpoint k t) := by
  induction hrun with
  | spent => rfl
  | stop hp => exact runBatch_of_stop (mt (performsStep_addBreakpoint hk _).mp hp) _
  | fail hp h ht =>
    exact (runBatch_of_step ((performsStep_addBreakpoint hk _).mpr hp) (step_addBreakpoint h k) _).2 ht
  | goOn hp h hu _ ih =>
    obtain ⟨-, hlines, -, -⟩ := step_keeps h
    rw [(runBatch_of_step ((performsStep_addBreakpoint hk _).mpr hp) (step_addBreakpoint h k) _).1 hu]
    exact ih (hlines ▸ hk)

/-! ### The set operations (R33, R205) -/

/-- Putting in an index that is there leaves a set in rising order as it was. -/
theorem insertIndex_of_mem {k : Word} {bs : List Word} (h : bs.Pairwise fun a b => a.toNat < b.toNat) (hk : k ∈ bs) :
    insertIndex k bs = bs := by
  induction bs with
  | nil => cases hk
  | cons b bs ih =>
    obtain ⟨hb, hbs⟩ := List.pairwise_cons.mp h
    unfold insertIndex
    rcases List.mem_cons.mp hk with rfl | hk
    · rw [if_neg (Nat.lt_irrefl _), if_pos rfl]
    · have hlt := hb k hk
      have hne : k ≠ b := by
        rintro rfl
        exact Nat.lt_irrefl _ hlt
      rw [if_neg (Nat.not_lt.mpr hlt.le), if_neg hne, ih hbs hk]

theorem removeBreakpoint_of_not_mem {k : Word} {s : State} (hk : k ∉ s.breakpoints) : removeBreakpoint k s = s := by
  have hsame : (s.breakpoints.filter fun b => b != k) = s.breakpoints :=
    List.filter_eq_self.mpr fun b hb => bne_iff_ne.mpr fun e => hk (e ▸ hb)
  rw [removeBreakpoint, hsame]

/-- Settles O57: for the last clause, every attempt of the batch is the same with a breakpoint past the program. -/
theorem breakpointOperationsAreSetOperations : Obligations.BreakpointOperationsAreSetOperations := by
  refine fun s k => ⟨fun j => mem_insertIndex k j s.breakpoints, fun j => ?_, rfl, fun hs hk => ?_,
    removeBreakpoint_of_not_mem, rfl, rfl, rfl, fun source t h => ?_, fun n b t hk h => ?_⟩
  · simp [removeBreakpoint, and_comm]
  · rw [addBreakpoint, insertIndex_of_mem hs hk]
  · rw [eq_setProgram_of_loadProgram h]; rfl
  · obtain ⟨hr, hrun⟩ := batchRun_of_runAmount h
    rw [runAmount_of_ready (s := addBreakpoint k s) hr]
    exact hrun.addBreakpoint hk

/-! ### The statements about steps and batches -/

/-- Settles O47: the batch of one is its first attempt, which no breakpoint stops. -/
theorem stepIsABatchOfOne : Obligations.StepIsABatchOfOne := by
  refine fun s hr => ⟨?_, fun hend => ?_, fun line hl => step_eq_execute hr hl, fun bs t h => step_withBreakpoints h bs⟩
  · obtain ⟨t, ht⟩ := aReadySessionAlwaysSteps s hr
    obtain ⟨hon, hfail⟩ := runAmount_of_step ht 0
    by_cases htr : t.status = .ready
    · exact ⟨t, true, ht, hon htr, by simp [htr]⟩
    · exact ⟨t, false, ht, hfail htr, by simp [htr]⟩
  · exact ⟨_, step_at_end hr (List.getElem?_eq_none hend), takesFault_raiseFault _ s⟩

/-- Settles O48. -/
theorem endOfProgramIsRaisedByTheFirstAttempt : Obligations.EndOfProgramIsRaisedByTheFirstAttempt := by
  refine ⟨fun s hr hend => ?_, fun s t r hlt h ht => ?_⟩
  · have hl : s.lines[s.pc.toNat]? = none := List.getElem?_eq_none hend
    have hstep := step_at_end hr hl
    exact ⟨_, hstep, takesFault_raiseFault _ s, hl, fun n => (runAmount_of_step hstep n).2 nofun⟩
  · obtain ⟨f, rfl, hf⟩ := fault_of_step h (by simp [ht])
    cases ht
    exact fun he => absurd hlt (Nat.not_lt.mpr (List.getElem?_eq_none_iff.mp (hf.mp he)))

/-- Settles O49: only an attempt after the first is stopped, and steps keep the breakpoint set. -/
theorem breakpointsStopABatchBeforeTheirLine : Obligations.BreakpointsStopABatchBeforeTheirLine := by
  have stops {s : State} (hb : s.pc ∈ s.breakpoints) (n : Nat) : runBatch false n s = .next (true, s) :=
    runBatch_of_stop (by simp [PerformsStep, hb]) n
  refine ⟨fun s u n h hu hb _ => ?_, fun s n hb _ => stops hb _, fun s n line hat => ?_, fun n s b t h => ?_⟩
  · exact ((runAmount_of_step h (n + 1)).1 hu).trans (stops hb _)
  · obtain ⟨t, ht⟩ := aReadySessionAlwaysSteps s hat.1
    exact ⟨t, ht, step_eq_execute hat.1 hat.2, runAmount_of_step ht n⟩
  · refine runAmount_induction (P := fun u => u.breakpoints = s.breakpoints) (fun u v hu huv => ?_) rfl h
    obtain ⟨-, -, -, hb⟩ := step_keeps huv
    exact hb.trans hu

/-- Settles O50: a batch's course is repeated steps, and steps that stay `Ready` and meet no breakpoint are attempts. -/
theorem batchesAreRepeatedSteps : Obligations.BatchesAreRepeatedSteps := by
  refine fun n s hr => ⟨fun b t h => (batchRun_of_runAmount h).2.runSteps, fun t hfree h ht => ?_, fun line t hl hb h => ?_⟩
  · rw [runAmount_of_ready hr]
    exact runBatch_of_runSteps ht n true s rfl (fun k u h0 => hfree k u (h0 rfl)) h
  · obtain ⟨hlt, -⟩ := List.getElem?_eq_some_iff.mp hl
    exact runBatch_of_step (.inr ⟨hlt, hb⟩) h n

/-- Settles O51, by the course of the batch. -/
theorem batchesAlwaysAnswerAndTheFlagTellsTheStatus : Obligations.BatchesAlwaysAnswerAndTheFlagTellsTheStatus := by
  refine ⟨fun s hr => ⟨fun n => ?_, runAmount_of_ready hr 0⟩, fun s n hend => ?_⟩
  · obtain ⟨b, t, h, hrun⟩ := runBatch_answers n true s hr
    exact ⟨b, t, (runAmount_of_ready hr n).trans h, hrun.flag_iff hr⟩
  · exact runBatch_of_stop (by simp [PerformsStep, Nat.not_lt.mpr hend]) n

/-! ### Program load (R203, R225, decisions D21, D25) -/

/-- A load is accepted exactly if the program fits and defines no label twice. -/
def Accepted (source : List Text) : Prop :=
  source.length ≤ Config.maxLines.val ∧ (∀ line ∈ source, (trim line).length ≤ Config.maxLineChars) ∧
    duplicatedLabel (source.map trim) = none

/-- What a load can do. -/
theorem loadProgram_cases (source : List Text) (s : State) :
    (Accepted source ∧ loadProgram source s = .next (setProgram (source.map trim) s)) ∨
      (¬ Accepted source ∧ ∃ r, loadProgram source s = .refused r) := by
  unfold loadProgram
  split
  · next hlen => exact .inr ⟨fun ⟨hfit, _⟩ => absurd hlen (Nat.not_lt.mpr hfit), _, rfl⟩
  split
  · next hchars =>
    obtain ⟨line, hmem, hlong⟩ : ∃ line ∈ source, Config.maxLineChars < (trim line).length := by simpa using hchars
    exact .inr ⟨fun ⟨_, hfit, _⟩ => absurd (hfit line hmem) (Nat.not_le.mpr hlong), _, rfl⟩
  next hlen hchars =>
  split
  · next name hdup => exact .inr ⟨fun ⟨_, _, hnone⟩ => Option.some_ne_none name (hdup.symm.trans hnone), _, rfl⟩
  · next hdup => exact .inl ⟨⟨Nat.not_lt.mp hlen, by simpa using hchars, hdup⟩, rfl⟩

theorem accepted_of_loadProgram {source : List Text} {s t : State} (h : loadProgram source s = .next t) : Accepted source := by
  obtain ⟨ha, -⟩ | ⟨-, r, hr⟩ := loadProgram_cases source s
  · exact ha
  · rw [hr] at h; cases h

/-- Trimming takes a run of whitespace off each end (R61). -/
theorem trim_splits (line : Text) :
    ∃ a b, (∀ c ∈ a, isSpace c = true) ∧ (∀ c ∈ b, isSpace c = true) ∧ line = a ++ trim line ++ b := by
  refine ⟨line.takeWhile isSpace, ((line.dropWhile isSpace).reverse.takeWhile isSpace).reverse,
    fun c => List.mem_takeWhile_imp, fun c hc => List.mem_takeWhile_imp (List.mem_reverse.mp hc), ?_⟩
  rw [trim, List.append_assoc, ← List.reverse_append, List.takeWhile_append_dropWhile, List.reverse_reverse,
    List.takeWhile_append_dropWhile]

theorem isTrimmed_of_mem_map_trim {source : List Text} {line : Text} (h : line ∈ source.map trim) : isTrimmed line = true := by
  obtain ⟨l, -, rfl⟩ := List.mem_map.mp h
  exact isTrimmed_trim l

/-- Settles O55, by what a load can do. -/
theorem programLoadSetsLinesAndTableOnly : Obligations.ProgramLoadSetsLinesAndTableOnly := by
  refine ⟨trim_splits, fun source s => ⟨fun hbad => ?_, fun hlen hchars hdup => ?_, fun _ => isTrimmed_of_mem_map_trim⟩⟩
  · obtain ⟨⟨hlen, hchars, hdup⟩, -⟩ | ⟨-, href⟩ := loadProgram_cases source s
    · obtain h | ⟨line, hmem, h⟩ | h := hbad
      · exact absurd hlen (Nat.not_le.mpr h)
      · exact absurd (hchars line hmem) (Nat.not_le.mpr h)
      · exact absurd hdup h
    · exact href
  · obtain ⟨-, hload⟩ | ⟨hrej, -⟩ := loadProgram_cases source s
    · exact hload
    · exact absurd ⟨hlen, hchars, hdup⟩ hrej

/-! ### The invariant under the host operations (R199, R203, R205) -/

theorem SessionInv.withBreakpoints {s : State} (h : SessionInv s) {bs : List Word}
    (hbs : bs.Pairwise fun a b => a.toNat < b.toNat) : SessionInv (withBreakpoints bs s) :=
  { h with breakpoints := hbs }

theorem SessionInv.setProgram {s : State} (h : SessionInv s) {lines : List Text}
    (htrim : ∀ line ∈ lines, isTrimmed line = true) (hlen : lines.length < 2 ^ 32) : SessionInv (setProgram lines s) :=
  { h with trimmed := htrim, lineCount := hlen, labels := rfl }

/-- Settles O6: a batch is steps, a load sets trimmed lines within the capacity, and each breakpoint operation leaves the set in
rising order. -/
theorem hostOperationsKeepTheInvariant : Obligations.HostOperationsKeepTheInvariant := by
  refine fun s hinv => ⟨fun n b t h => runAmount_induction everyStepKeepsTheInvariant hinv h, fun source t h => ?_,
    fun k => hinv.withBreakpoints (pairwise_insertIndex k _ hinv.breakpoints),
    fun k => hinv.withBreakpoints (hinv.breakpoints.filter _), hinv.withBreakpoints .nil⟩
  obtain ⟨hlen, -, -⟩ := accepted_of_loadProgram h
  rw [eq_setProgram_of_loadProgram h]
  refine hinv.setProgram (fun _ => isTrimmed_of_mem_map_trim) ?_
  rw [List.length_map]
  exact hlen.trans_lt Config.maxLines.isLt

/-! ### Readback (R204) -/

/-- The words of memory in the order of their number, 16 to a block. -/
theorem readMemory_getElem? (s : State) {b w : Nat} (hb : b < 8) (hw : w < 16) :
    (readMemory s)[16 * b + w]? = some (s.mem.wordAt b w) := by
  have hlt : 16 * b + w < 128 := by omega
  have hdiv : (16 * b + w) / 16 = b := by omega
  have hmod : (16 * b + w) % 16 = w := by omega
  simp [readMemory, hlt, hdiv, hmod]

/-- Settles O56. -/
theorem readbackListsRegistersAndMemoryInOrder : Obligations.ReadbackListsRegistersAndMemoryInOrder := by
  refine fun s => ⟨by simp [readRegisters], fun i => by simp [readRegisters, State.readReg], by simp [readMemory],
    fun b w hb hw => readMemory_getElem? s hb hw, fun t hregs hmem => ?_⟩
  simp only [readRegisters, readMemory, hregs, hmem, and_self]

end Sys2Proof.Machine
end

section
/-! PROOFS of the statements about reset (`70_reset_and_hazards.md`). -/

namespace Sys2Proof.Machine

/-! ### What a fresh session reads as (R220, R221) -/

/-- Where nothing was written, each of a word's four bytes reads as 0 (R221). -/
theorem wordAt_nil (b w : Nat) : Memory.wordAt [] b w = 0 := by
  have hbyte (a : Nat) : Memory.byteAt [] a = 0 := byteAt_below [] a nofun
  simp [Memory.wordAt, Memory.wordFrom, hbyte]

/-- Reset sets `x0` to 0 (R220), the value the other registers have by decision D16, so all 32 hold it. -/
theorem readReg_reset (r : RegIx) : State.reset.readReg r = 0 := by
  have hregs : State.reset.regs = Vector.replicate 32 0 := Vector.set_replicate_self (h := Nat.zero_lt_succ 31)
  simp [State.readReg, hregs]

/-! ### The statements about reset -/

/-- Settles O1. -/
theorem resetMemoryIsZeroAndTagsAreInvalid : Obligations.ResetMemoryIsZeroAndTagsAreInvalid :=
  ⟨fun b w _ _ => wordAt_nil b w, invariantHoldsAtReset.tags⟩

/-- Settles O2: these are the values that reset gives the fields, and the readback of the error is its field. -/
theorem resetSessionIsReadyWithoutErrorOrBreakpoints : Obligations.ResetSessionIsReadyWithoutErrorOrBreakpoints :=
  ⟨rfl, rfl, rfl, rfl⟩

/-- Settles O3: with no line at the `pc`, a step of the `Ready` session takes the fault of the program's end. -/
theorem resetRegistersPcAndProgramAreZeroAndEmpty : Obligations.ResetRegistersPcAndProgramAreZeroAndEmpty :=
  have hstep : step State.reset = .next (raiseFault .endOfProgram State.reset) := step_at_end rfl rfl
  ⟨readReg_reset, rfl, rfl, rfl, _, hstep, takesFault_raiseFault .endOfProgram State.reset⟩

end Sys2Proof.Machine
end
